-- ==== Sys2Proof/Word.lean ====
section
/-! DEFINITION. The word types of the block: bytes, character codes, font ROM addresses, and the fixed-size
groups of bytes that rules R5, R11, R15 and R17 give it. -/

namespace Sys2Proof

/-- A byte: 8 bits, bit 7 its most significant (R7). -/
abbrev Byte := BitVec 8

/-- A character code, 16 bits: msb in bits 15..8, lsb in bits 7..0 (R62). -/
abbrev Code := BitVec 16

/-- A byte address of the font ROM space, 24 bits (R28). -/
abbrev RomAddr := BitVec 24

/-- One framebuffer row: 12 byte columns, column 0 first (R11). -/
abbrev Row := Vector Byte 12

/-- The framebuffer grid: 16 rows (R5, R11). -/
abbrev Grid := Vector Row 16

/-- A glyph: 32 bytes (R15, R65). -/
abbrev Glyph := Vector Byte 32

/-- The storage of the character queue: 20 slots (R17). -/
abbrev Slots := Vector Code 20

end Sys2Proof
end

