-- ==== Sys2Proof/Config.lean ====
section
/-! DEFINITION. What a platform fixes (the parameters of rule R6) and the values the spec leaves open (free values,
opaque constants without a body). The parameters are plain data, so that State can carry them and every claim
about a state ranges over every value of them. -/

namespace Sys2Proof

/-- One logical level for each of the twelve signals of rules R181 and R182; 1 is asserted, enabled or active. -/
structure Levels where
  /-- ROM_CS, device-select. -/
  romCs : Bool
  /-- ROM_CLK, bit clock of the font ROM port. -/
  romClk : Bool
  /-- ROM_DO, data to the font ROM. -/
  romDo : Bool
  /-- ROM_DI, data from the font ROM: the level found at the last sample. -/
  romDi : Bool
  /-- LED_SDI, serial data into the driver chip. -/
  ledSdi : Bool
  /-- LED_CLK, shift clock of the LED driver port. -/
  ledClk : Bool
  /-- LED_LE, latch. -/
  ledLe : Bool
  /-- LED_OEN, output enable. -/
  ledOen : Bool
  /-- LED_A0, row-select line 0. -/
  ledA0 : Bool
  /-- LED_A1, row-select line 1. -/
  ledA1 : Bool
  /-- LED_A2, row-select line 2. -/
  ledA2 : Bool
  /-- LED_A3, row-select line 3. -/
  ledA3 : Bool
  deriving DecidableEq, Repr

/-- The parameters of rule R6 that a platform fixes for a run (R194 point 3). `ROM` is State's field `rom`,
`init_ok` is an operand of RESET. -/
structure Params where
  /-- FONT_BASE, the base of the address rules, a natural number below 2^24 (OPEN, decision D4). -/
  fontBase : RomAddr
  /-- ROW_SELECT, the four row-select line levels for each row index (OPEN, injective, decision D8). -/
  rowSelect : Vector (BitVec 4) 16
  /-- SLOT_MAP: for each row, the glyph byte that goes to column 0 and the one that goes to column 1
  (OPEN, injective, decision D7). -/
  slotMap : Vector (Fin 32 × Fin 32) 16
  /-- DELAY_UNIT, the settle delay, in nanoseconds; no operation reads it (R204, D22). -/
  delayUnit : Nat
  /-- TICK_PERIOD, the period of the external tick, in nanoseconds; no operation reads it (R213, D20). -/
  tickPeriod : Nat
  /-- POLARITY: for each signal, the electrical level that is its logical 1; no operation reads it (D2). -/
  polarity : Levels
  deriving DecidableEq, Repr

/-- Every signal at one level. -/
def Levels.all (b : Bool) : Levels := ⟨b, b, b, b, b, b, b, b, b, b, b, b⟩

/-- The values State.reset gives the parameters: the spec's defaults where it has one (ROW_SELECT binary, SLOT_MAP
row-major, TICK_PERIOD 1 ms), else a DESIGN CHOICE (log entries 3, 4 and 5): FONT_BASE the value the spec's own test
vectors take, DELAY_UNIT 1, POLARITY all 1. -/
def Params.default : Params where
  fontBase := 0x100000
  rowSelect := Vector.ofFn fun r => BitVec.ofNat 4 r.val
  slotMap := Vector.ofFn fun r => (⟨2 * r.val, by omega⟩, ⟨2 * r.val + 1, by omega⟩)
  delayUnit := 1
  tickPeriod := 1000000
  polarity := Levels.all true

/-- The constraints of rule R6: ROW_SELECT and SLOT_MAP are injective, the durations are positive. -/
abbrev Params.wf (p : Params) : Prop :=
  p.rowSelect.toList.Nodup ∧ (p.slotMap.toList.map Prod.fst ++ p.slotMap.toList.map Prod.snd).Nodup ∧
    0 < p.delayUnit ∧ 0 < p.tickPeriod

/-- FREE VALUE (log entry 6): the level found on ROM_DI in receive cell `cell` of draw number `draw`, where the font ROM
does not answer (R46, R86, R174, decision D6). -/
opaque Config.romLine (draw cell : Nat) : Bool

/-- FREE VALUE (log entry 11): what the font ROM holds at an address of which State lists no byte; one value an address, so that
an unchanged ROM answers alike each time (R6, R48). -/
opaque Config.romContents (a : RomAddr) : Byte

/-- FREE VALUE (log entry 7): what queue slot `slot` holds after the RESET with draw number `draw` (R30, U10). -/
opaque Config.freeCode (draw slot : Nat) : Code

/-- FREE VALUE (log entry 8): the driver chip's shift stage SR after RESET (R30, R193). -/
opaque Config.freeShift (draw : Nat) : BitVec 80

/-- FREE VALUE (log entry 8): the driver chip's output latch OL after RESET (R30, R193). -/
opaque Config.freeLatch (draw : Nat) : BitVec 80

/-- FREE VALUE (log entry 8): the driver chip's enable bit OEN after RESET (R30, R193). -/
opaque Config.freeEnable (draw : Nat) : Bool

/-- FREE VALUE (log entry 8): the driver chip's row code RSEL after RESET (R30, R193). -/
opaque Config.freeRow (draw : Nat) : BitVec 4

/-- FREE VALUE (log entry 8): the levels of the twelve signals after RESET (R30, R193), signal by signal. -/
opaque Config.freeLevel (draw signal : Nat) : Bool

end Sys2Proof
end

