-- ==== Sys2Proof/Syntax.lean ====
section
/-! DEFINITION. The operations and formats of spec/opcode_table.json, one constructor a row (R60, R66), and the frames
in which the host presents them. -/

namespace Sys2Proof

/-- One step of the block, or one presented format: the rows of spec/opcode_table.json in the table's order. -/
inductive Instr where
  /-- RESET `init_ok` (R150). -/
  | reset (initOk : Bool)
  /-- LOAD `payload` (R121). -/
  | load (payload : List Byte)
  /-- CLRFB (R103). -/
  | clrfb
  /-- SHIFT (R111). -/
  | shift
  /-- RESOLVE `code` (R85). -/
  | resolve (code : Code)
  /-- WRSLOT (R101). -/
  | wrslot
  /-- BLANKSLOT (R102). -/
  | blankslot
  /-- REFRESH (R131). -/
  | refresh
  /-- TICK `msg`, the message absent or one payload (R151). -/
  | tick (msg : Option (List Byte))
  /-- ROM.READ, the read frame for ROM address `a` and its exchange (R63, R84). -/
  | romRead (a : RomAddr)
  /-- MSG, one inbound payload handed over by the host (R61, R183). -/
  | msg (payload : List Byte)
  /-- ROWSEL, one row-select code on the row-select lines (R64, R134). -/
  | rowsel (v : BitVec 4)
  /-- Select code 0000, unassigned (R68). -/
  | reserved0000
  /-- Select code 1010, unassigned (R68). -/
  | reserved1010
  /-- Select code 1011, unassigned (R68). -/
  | reserved1011
  /-- Select code 1100, unassigned (R68). -/
  | reserved1100
  /-- Select code 1101, unassigned (R68). -/
  | reserved1101
  /-- Select code 1110, unassigned (R68). -/
  | reserved1110
  /-- Select code 1111, unassigned (R68). -/
  | reserved1111
  deriving DecidableEq, Repr

/-- The formats of the opcode table (R60): they have ports of their own, so a frame says which one it is in. -/
inductive Format where
  /-- OP4, the operation select port with its operand bytes (R66). -/
  | op4
  /-- ROMFRAME, the 32 bits of a ROM read command (R63). -/
  | romFrame
  /-- MSG, an inbound payload (R61). -/
  | msg
  /-- ROWSEL, a row-select code (R64). -/
  | rowSel
  deriving DecidableEq, Repr

/-- What the host presents for one step: a format and its bytes, first byte first. -/
structure Frame where
  format : Format
  bytes : List Byte
  deriving DecidableEq, Repr

end Sys2Proof
end

