-- ==== Sys2Proof/Decode.lean ====
section
/-! DEFINITION. From the bytes of a frame to an operation and back. Decoding is total on any bytes and rejects by name.
Select codes are rule R66's and R68's; the bytes that carry operands are the model's own (log entry 2). -/

namespace Sys2Proof

/-- Why a frame stands for no operation. -/
inductive DecodeError where
  /-- The frame ends before the operand the operation needs. -/
  | operandMissing
  /-- A byte that carries a 4-bit code or a 1-bit operand has bits above it set. -/
  | fieldTooWide
  /-- A ROMFRAME whose first byte is not the read opcode 0x03 (R63). -/
  | notReadOpcode
  deriving DecidableEq, Repr

/-! ### Byte order (R40: most significant byte first everywhere) -/

/-- `msb ++ lsb` (R41). -/
def joinCode (msb lsb : Byte) : Code := msb ++ lsb

/-- `code[15:8]` (R62). -/
def codeMsb (code : Code) : Byte := code.extractLsb' 8 8

/-- `code[7:0]` (R62). -/
def codeLsb (code : Code) : Byte := code.extractLsb' 0 8

/-- Three address bytes, `A[23:16]` first (R42). -/
def joinAddr (a2 a1 a0 : Byte) : RomAddr := a2 ++ a1 ++ a0

/-- The three bytes of a ROM address in the order they are sent (R42). -/
def addrBytes (a : RomAddr) : List Byte := [a.extractLsb' 16 8, a.extractLsb' 8 8, a.extractLsb' 0 8]

/-- The read opcode (R63). -/
def readOpcode : Byte := 0x03

/-! ### The payload format MSG -/

/-- The character count the block uses: `min(N, 20)` with `N` the payload's byte 1 (R67 point 4, R123). -/
def payloadCount (payload : List Byte) : Nat := min (payload.getD 1 0).toNat 20

/-- Whether the payload has the bytes the block reads: at least 2, and `2 + 2*min(N, 20)` (R69, R124). -/
def payloadReadable (payload : List Byte) : Bool :=
  decide (2 ≤ payload.length) && decide (2 + 2 * payloadCount payload ≤ payload.length)

/-- Code `i` of a payload, big-endian from byte 2 on (R41, R67 point 1). -/
def payloadCode (payload : List Byte) (i : Nat) : Code :=
  joinCode (payload.getD (2 + 2 * i) 0) (payload.getD (3 + 2 * i) 0)

/-! ### Decoding -/

/-- A one-bit operand carried in a byte. -/
def decodeFlag (b : Byte) : Except DecodeError Bool :=
  if b = 0 then .ok false else if b = 1 then .ok true else .error .fieldTooWide

/-- RESET's operand: one byte holding `init_ok`. -/
def decodeReset : List Byte → Except DecodeError Instr
  | [] => .error .operandMissing
  | b :: _ => (decodeFlag b).map .reset

/-- RESOLVE's operand: the two bytes of the code, msb first (R62). -/
def decodeResolve : List Byte → Except DecodeError Instr
  | m :: l :: _ => .ok (.resolve (joinCode m l))
  | _ => .error .operandMissing

/-- TICK's operand: nothing, or a byte that says whether a payload follows. -/
def decodeTick : List Byte → Except DecodeError Instr
  | [] => .ok (.tick none)
  | b :: rest => (decodeFlag b).map fun present => .tick (if present then some rest else none)

/-- The operation a select code `op[3:0]` names, bit 3 first, with its operand bytes (R66, R68). -/
def decodeSelect (op : BitVec 4) (operand : List Byte) : Except DecodeError Instr :=
  match op.getLsbD 3, op.getLsbD 2, op.getLsbD 1, op.getLsbD 0 with
  | false, false, false, false => .ok .reserved0000
  | false, false, false, true => decodeReset operand
  | false, false, true, false => .ok (.load operand)
  | false, false, true, true => .ok .clrfb
  | false, true, false, false => .ok .shift
  | false, true, false, true => decodeResolve operand
  | false, true, true, false => .ok .wrslot
  | false, true, true, true => .ok .blankslot
  | true, false, false, false => .ok .refresh
  | true, false, false, true => decodeTick operand
  | true, false, true, false => .ok .reserved1010
  | true, false, true, true => .ok .reserved1011
  | true, true, false, false => .ok .reserved1100
  | true, true, false, true => .ok .reserved1101
  | true, true, true, false => .ok .reserved1110
  | true, true, true, true => .ok .reserved1111

/-- A 4-bit code carried in the low half of a byte. -/
def decodeNibble (b : Byte) : Except DecodeError (BitVec 4) :=
  if b.toNat < 16 then .ok (b.extractLsb' 0 4) else .error .fieldTooWide

/-- An OP4 frame: the select code, then the operand bytes (R66). -/
def decodeOp4 : List Byte → Except DecodeError Instr
  | [] => .error .operandMissing
  | b :: operand =>
    match decodeNibble b with
    | .ok op => decodeSelect op operand
    | .error e => .error e

/-- A ROMFRAME: the opcode byte, then the address, most significant byte first (R63). -/
def decodeRomFrame : List Byte → Except DecodeError Instr
  | o :: a2 :: a1 :: a0 :: _ => if o = readOpcode then .ok (.romRead (joinAddr a2 a1 a0)) else .error .notReadOpcode
  | _ => .error .operandMissing

/-- A ROWSEL frame: the four line levels in one byte (R64). -/
def decodeRowSel : List Byte → Except DecodeError Instr
  | [] => .error .operandMissing
  | b :: _ => (decodeNibble b).map .rowsel

/-- The operation a frame stands for, or the reason it stands for none. -/
def decode (f : Frame) : Except DecodeError Instr :=
  match f.format with
  | .op4 => decodeOp4 f.bytes
  | .romFrame => decodeRomFrame f.bytes
  | .msg => .ok (.msg f.bytes)
  | .rowSel => decodeRowSel f.bytes

/-! ### The opcode table's numbering -/

/-- The bytes of the longest operation: TICK's select code, the presence byte and a payload of 20 codes (R71). -/
def longestFrame : Nat := 44

/-- The frame in which a word of spec/opcode_table.json stands, by its width: a 4-bit select code (the op port has
four lines), a 16-bit MSG header, or a 32-bit ROMFRAME, each most significant byte first (R40), followed by zeros up to the
longest operation where the format goes on. The table's ROWSEL row has the width of a select code and no fixed
bits, so no word of the table is read as one. -/
def tableFrame (nbits w : Nat) : Option Frame :=
  if nbits ≤ 8 then
    some ⟨.op4, BitVec.ofNat 8 (w % 16) :: List.replicate (longestFrame - 1) 0⟩
  else if nbits = 16 then
    some ⟨.msg, BitVec.ofNat 8 (w / 256) :: BitVec.ofNat 8 w :: List.replicate (longestFrame - 2) 0⟩
  else if nbits = 32 then
    some ⟨.romFrame, [BitVec.ofNat 8 (w / 2 ^ 24), BitVec.ofNat 8 (w / 2 ^ 16), BitVec.ofNat 8 (w / 2 ^ 8),
      BitVec.ofNat 8 w]⟩
  else none

/-- The operation the decoder reads from a word of the opcode table. -/
def decodeTableWord (nbits w : Nat) : Option Instr :=
  match tableFrame nbits w with
  | none => none
  | some f =>
    match decode f with
    | .ok i => some i
    | .error _ => none

/-! ### Encoding -/

/-- The format an operation is presented in: the table's column. -/
def encodeFormat : Instr → Format
  | .romRead _ => .romFrame
  | .msg _ => .msg
  | .rowsel _ => .rowSel
  | .reset _ | .load _ | .clrfb | .shift | .resolve _ | .wrslot | .blankslot | .refresh | .tick _ => .op4
  | .reserved0000 | .reserved1010 | .reserved1011 | .reserved1100 | .reserved1101 | .reserved1110
  | .reserved1111 => .op4

/-- A one-bit operand as a byte. -/
def encodeFlag (b : Bool) : Byte := if b then 1 else 0

/-- The bytes of an operation: select codes of R66 and R68, operands after them. -/
def encodeBytes : Instr → List Byte
  | .reset ok => [0x01, encodeFlag ok]
  | .load payload => 0x02 :: payload
  | .clrfb => [0x03]
  | .shift => [0x04]
  | .resolve code => [0x05, codeMsb code, codeLsb code]
  | .wrslot => [0x06]
  | .blankslot => [0x07]
  | .refresh => [0x08]
  | .tick none => [0x09]
  | .tick (some payload) => 0x09 :: encodeFlag true :: payload
  | .romRead a => readOpcode :: addrBytes a
  | .msg payload => payload
  | .rowsel v => [v.zeroExtend 8]
  | .reserved0000 => [0x00]
  | .reserved1010 => [0x0A]
  | .reserved1011 => [0x0B]
  | .reserved1100 => [0x0C]
  | .reserved1101 => [0x0D]
  | .reserved1110 => [0x0E]
  | .reserved1111 => [0x0F]

/-- The frame of an operation. -/
def encode (i : Instr) : Frame := ⟨encodeFormat i, encodeBytes i⟩

end Sys2Proof
end

