-- ==== Sys2Proof/Machine/State.lean ====
section
/-! DEFINITION. The state of the block (R11 to R24), of the two devices its events reach (R29, R46), of the host that
drives it (R10, R183), and the parameters a platform fixes (R6); the events (R9); the reasons a step stops; reset. -/

namespace Sys2Proof.Machine

/-- MODE (R24, R179). -/
inductive Mode where
  /-- Normal operation. -/
  | idle
  /-- Initialization failed: a tick performs no work until the next RESET. -/
  | error
  deriving DecidableEq, Repr

/-- The output events (R9), on logical levels. -/
inductive Event where
  /-- ROM_SEL: device-select asserted or deasserted. -/
  | romSel (v : Bool)
  /-- ROM_TX: one bit cell in which the block drives a data bit. -/
  | romTx (b : Bool)
  /-- ROM_RX: one bit cell in which the block samples a bit from the device. -/
  | romRx (b : Bool)
  /-- LED_TX: one bit cell in which the block drives a serial data bit. -/
  | ledTx (b : Bool)
  /-- LED_OE: output disabled or enabled. -/
  | ledOe (v : Bool)
  /-- LED_LATCH: one latch pulse. -/
  | ledLatch
  /-- LED_ROW: the four row-select lines set to a value. -/
  | ledRow (v : BitVec 4)
  deriving DecidableEq, Repr

/-- The LED driver chip as rule R29 models it. -/
structure Sink where
  /-- SR, the shift stage. -/
  sr : BitVec 80
  /-- OL, the output latch. -/
  ol : BitVec 80
  /-- OEN, the enable bit. -/
  oen : Bool
  /-- RSEL, the row code. -/
  rsel : BitVec 4
  deriving DecidableEq, Repr

/-- Why a step ends in a fault. -/
inductive Fault where
  /-- Raised by TICK when a glyph advance would read a queue slot that does not exist (index 20 or above), which
  "must never be read" (R18, U9, R183). Safe: only states outside the invariant of R27 reach it. -/
  | queueReadPastEnd
  deriving DecidableEq, Repr

/-- Why a step is refused. -/
inductive Refusal where
  /-- An operation without a meaning yet. Raised by no arm of this model. Safe. -/
  | notModelled (mnemonic : String)
  /-- Raised by LOAD, and by a TICK in mode Idle, whose payload has fewer bytes than the block reads: a host duty was
  broken (R124, decision D15). Safe: the spec gives the step no meaning. -/
  | shortPayload
  /-- Raised by the seven unassigned select codes (R68). Safe: the spec gives them no meaning. -/
  | reservedSelect (op : BitVec 4)
  /-- Raised by step on a frame that stands for no operation. Safe: such bytes are in no encoding of the spec. -/
  | undecodable (e : DecodeError)
  deriving DecidableEq, Repr

/-- Everything that changes or can differ between runs. -/
structure State where
  /-- FB, the framebuffer: 16 rows of 12 byte columns (R11). -/
  fb : Grid
  /-- G, the glyph buffer (R15). -/
  g : Glyph
  /-- Q, the character queue's 20 slots (R17). -/
  q : Slots
  /-- QLEN, how many slots of Q count (R17, R26). -/
  qlen : BitVec 8
  /-- TICKC, `tick_counter` (R20, R26). -/
  tickc : BitVec 8
  /-- MOVEC, `move_counter` (R21, R26). -/
  movec : BitVec 8
  /-- SEQ, `sequence_index` (R22, R26). -/
  seq : BitVec 8
  /-- BLANKC, `blank_count` (R23, R26). -/
  blankc : BitVec 8
  /-- MODE (R24). -/
  mode : Mode
  /-- The LED driver chip (R29). -/
  sink : Sink
  /-- The level last written on each output signal, and last sampled on ROM_DI (R181, R182, R205). -/
  pins : Levels
  /-- The output trace, oldest event first (R9). -/
  trace : List Event
  /-- The known contents of the font ROM, address and byte, addresses rising (R28, R46, R49). -/
  rom : List Host.Cell
  /-- Whether the font ROM is there and answers (R6, R46, R174). -/
  romResponds : Bool
  /-- How many times free values have been drawn: the model's own field (log entries 6 to 8). -/
  draws : Nat
  /-- Messages the host holds out at the poll, oldest first: the model's own field (R54, R175, log entry 10). -/
  inbox : List (List Byte)
  /-- The operations the host will have run, next one first: the model's own field (R10, R183, log entry 1). -/
  pending : List Frame
  /-- The parameters the platform fixes for the run (R6, R194). -/
  params : Params
  deriving DecidableEq, Repr

/-- The machine right after a successful RESET at power-up (R30, log entry 14): the framebuffer, G, QLEN and the four
counters zero, MODE Idle. The values rule R30 leaves unspecified (Q, the driver chip, the signal levels) are 0 here by DESIGN
CHOICE (log entry 9), as are the values of the platform's side (log entries 3 to 5, 11). -/
def State.reset : State where
  fb := Vector.replicate 16 (Vector.replicate 12 0)
  g := Vector.replicate 32 0
  q := Vector.replicate 20 0
  qlen := 0
  tickc := 0
  movec := 0
  seq := 0
  blankc := 0
  mode := .idle
  sink := ⟨0, 0, false, 0⟩
  pins := Levels.all false
  trace := []
  rom := []
  romResponds := true
  draws := 0
  inbox := []
  pending := []
  params := Params.default

end Sys2Proof.Machine
end

