-- ==== Sys2Proof/Machine/Flags.lean ====
section
/-! DEFINITION. The block's only flag: the scroll carry, local to one row of one SHIFT (R25, R112). -/

namespace Sys2Proof.Machine

/-- The bit about to leave a byte (R111). -/
def carryOut (b : Byte) : Bool := b.msb

/-- A byte shifted left with the carry as its new bit 0: `((b << 1) mod 256) + carry` (R111). -/
def shiftByte (b : Byte) (carry : Bool) : Byte := (b <<< 1) + (BitVec.ofBool carry).zeroExtend 8

/-- One left-to-right pass over a row's bytes, the carry out of each byte entering the next and the last one
dropped (R111, R112). -/
def carryPass (carry : Bool) : List Byte → List Byte
  | [] => []
  | b :: bs => shiftByte b carry :: carryPass (carryOut b) bs

theorem carryPass_length (carry : Bool) (bs : List Byte) : (carryPass carry bs).length = bs.length := by
  induction bs generalizing carry with
  | nil => rfl
  | cons b bs ih => simp [carryPass, ih]

end Sys2Proof.Machine
end

