-- ==== Sys2Proof/Machine/Operands.lean ====
section
/-! DEFINITION. Operand forms: the address computation of the font ROM reader (R81, R82), the bits of what goes out on
a serial line (R40 to R44), and the row views of the framebuffer (R12, R104). -/

namespace Sys2Proof.Machine

/-! ### The address of a glyph -/

/-- `GetAddress` (R81): four region rules in order, on natural numbers. -/
def getAddress (base : Nat) (code : Code) : Nat :=
  let msb := (codeMsb code).toNat
  let lsb := (codeLsb code).toNat
  if 0xA4 ≤ msb ∧ msb ≤ 0xA8 ∧ 0xA1 ≤ lsb then base
  else if 0xA1 ≤ msb ∧ msb ≤ 0xA9 ∧ 0xA1 ≤ lsb then ((msb - 0xA1) * 94 + (lsb - 0xA1)) * 32 + base
  else if 0xB0 ≤ msb ∧ msb ≤ 0xF7 ∧ 0xA1 ≤ lsb then ((msb - 0xB0) * 94 + (lsb - 0xA1) + 846) * 32 + base
  else 0

/-- The 24-bit address sent for a code: `GetAddress(code) mod 2^24` (R82). -/
def glyphAddr (p : Params) (code : Code) : RomAddr := BitVec.ofNat 24 (getAddress p.fontBase.toNat code)

/-! ### Serial bits -/

/-- The bits of a word, most significant first (R40). -/
def msbFirst (n : Nat) (x : BitVec n) : List Bool := (List.range n).map fun t => x.getLsbD (n - 1 - t)

/-- Eight bits packed into a byte, the first one its most significant (R43, R84). -/
def packByte (bits : List Bool) : Byte := bits.foldl (fun b s => (b <<< 1) + (BitVec.ofBool s).zeroExtend 8) 0

/-- The 32 bits of the read command as a word: `0x03000000 + A` (R63, R84). -/
def readFrame (a : RomAddr) : BitVec 32 := 0x03000000#32 + a.zeroExtend 32

/-! ### Views of a framebuffer row -/

/-- `RowBytes`: columns 2 to 11 in that order (R104). -/
def rowBytes (row : Row) : List Byte := row.toList.drop 2

/-- `RowWord`: the row as a 96-bit number, column 0 in bits 7..0, column 11 in bits 95..88 (R12). -/
def rowWord (row : Row) : BitVec 96 :=
  row[11] ++ row[10] ++ row[9] ++ row[8] ++ row[7] ++ row[6] ++ row[5] ++ row[4] ++ row[3] ++ row[2] ++ row[1] ++ row[0]

/-- The 80 displayed bits of a row as a number, column 2 most significant (R136). -/
def visibleWord (row : Row) : BitVec 80 :=
  row[2] ++ row[3] ++ row[4] ++ row[5] ++ row[6] ++ row[7] ++ row[8] ++ row[9] ++ row[10] ++ row[11]

/-! ### Cadence constants (R5) -/

/-- Ticks per SHIFT. -/
def ticksPerShift : BitVec 8 := 30

/-- SHIFTs per glyph advance. -/
def shiftsPerAdvance : BitVec 8 := 16

/-- Blank loads before the message restarts. -/
def blanksPerMessage : BitVec 8 := 5

end Sys2Proof.Machine
end

