-- ==== Sys2Proof/Machine/Ports.lean ====
section
/-! DEFINITION. What one event does outside the block: to the LED driver chip (R29), and to the signals, cell by cell
(R205). -/

namespace Sys2Proof.Machine

/-! ### The LED driver chip -/

/-- The effect of one event on the driver chip (R29). The events of the font ROM port do not reach it. -/
def Sink.apply (k : Sink) : Event → Sink
  | .ledTx b => { k with sr := (k.sr <<< 1) + (BitVec.ofBool b).zeroExtend 80 }
  | .ledLatch => { k with ol := k.sr }
  | .ledOe v => { k with oen := v }
  | .ledRow v => { k with rsel := v }
  | .romSel _ | .romTx _ | .romRx _ => k

/-! ### Bit cells at pin level -/

/-- The block's output signals (R181, R182). -/
inductive Signal where
  | romCs
  | romClk
  | romDo
  | ledSdi
  | ledClk
  | ledLe
  | ledOen
  | ledA0
  | ledA1
  | ledA2
  | ledA3
  deriving DecidableEq, Repr

/-- One pin-level action of a bit cell (R205). -/
inductive PinOp where
  /-- A signal is set to a logical level. -/
  | put (sig : Signal) (level : Bool)
  /-- One settle delay, one DELAY_UNIT. -/
  | delay
  /-- ROM_DI is sampled and found at a level. -/
  | sample (level : Bool)
  deriving DecidableEq, Repr

/-- The expansion of an event into pin-level actions (R205). -/
def Event.cell : Event → List PinOp
  | .romTx b => [.put .romDo b, .delay, .put .romClk true, .put .romClk false, .delay]
  | .romRx s => [.delay, .put .romClk true, .sample s, .put .romClk false, .delay]
  | .ledTx b => [.put .ledSdi b, .delay, .put .ledClk true, .put .ledClk false, .delay]
  | .ledLatch => [.put .ledLe true, .put .ledLe false]
  | .ledOe v => [.put .ledOen v]
  | .ledRow v =>
    [.put .ledA0 (v.getLsbD 0), .put .ledA1 (v.getLsbD 1), .put .ledA2 (v.getLsbD 2), .put .ledA3 (v.getLsbD 3)]
  | .romSel v => [.put .romCs v]

/-- One signal at a level. -/
def putLevel (p : Levels) (sig : Signal) (b : Bool) : Levels :=
  match sig with
  | .romCs => { p with romCs := b }
  | .romClk => { p with romClk := b }
  | .romDo => { p with romDo := b }
  | .ledSdi => { p with ledSdi := b }
  | .ledClk => { p with ledClk := b }
  | .ledLe => { p with ledLe := b }
  | .ledOen => { p with ledOen := b }
  | .ledA0 => { p with ledA0 := b }
  | .ledA1 => { p with ledA1 := b }
  | .ledA2 => { p with ledA2 := b }
  | .ledA3 => { p with ledA3 := b }

/-- The effect of one pin-level action on the levels. -/
def PinOp.apply (p : Levels) : PinOp → Levels
  | .put sig b => putLevel p sig b
  | .delay => p
  | .sample b => { p with romDi := b }

/-- The effect of one event on the levels (R205). -/
def Event.drive (p : Levels) (e : Event) : Levels := e.cell.foldl PinOp.apply p

/-- How many settle delays a sequence of events spends (R204, R210). -/
def settleDelays (es : List Event) : Nat := (es.flatMap Event.cell).count .delay

/-- The nanoseconds a sequence of events spends in settle delays (R210); the pin writes themselves are not counted. -/
def settleTime (p : Params) (es : List Event) : Nat := settleDelays es * p.delayUnit

/-- The electrical level of a signal at logical level `b` whose logical 1 is `one` (POLARITY, R6). -/
def electrical (one b : Bool) : Bool := if b then one else !one

end Sys2Proof.Machine
end

