-- ==== Sys2Proof/Machine/Ops.lean ====
section
/-! DEFINITION. The named operations over memory, ports and registers that the meanings are made of. -/

namespace Sys2Proof.Machine

/-! ### The font ROM's known contents (R28, R46)

A list of address and byte, addresses strictly rising and below 2^24. An address that is not listed holds a free value of its
own (log entry 11). The block itself never writes it (R8: `MemWrite` is never used); `storeRom` is how a platform's contents
are written down. -/

/-- The known byte at an address. -/
def readRom : List Host.Cell → Nat → Option Byte
  | [], _ => none
  | c :: cs, a => if c.1 = a then some c.2 else readRom cs a

/-- Contents with a byte put at an address, in the canonical order. -/
def storeRom : List Host.Cell → Nat → Byte → List Host.Cell
  | [], a, b => [(a, b)]
  | c :: cs, a, b =>
    if a < c.1 then (a, b) :: c :: cs else if a = c.1 then (a, b) :: cs else c :: storeRom cs a b

/-- Contents with consecutive bytes put from an address on. -/
def storeBytes (m : List Host.Cell) (a : Nat) : List Byte → List Host.Cell
  | [] => m
  | b :: bs => storeBytes (storeRom m a b) (a + 1) bs

/-- Whether every address is at least `low`, and they strictly rise and stay below 2^24. -/
def Memory.wfFrom : Nat → List Host.Cell → Bool
  | _, [] => true
  | low, c :: cs => decide (low ≤ c.1) && decide (c.1 < 2 ^ 24) && Memory.wfFrom (c.1 + 1) cs

/-- The canonical form. -/
def Memory.wf (m : List Host.Cell) : Bool := Memory.wfFrom 0 m

/-! ### Events -/

/-- The state after the block has given a sequence of events: the trace grows (R9), the driver chip and the signals
follow it (R29, R205). -/
def State.emit (s : State) (es : List Event) : State :=
  { s with
    trace := s.trace ++ es
    sink := es.foldl Sink.apply s.sink
    pins := es.foldl Event.drive s.pins }

/-! ### The serial exchange with the font ROM (R84) -/

/-- The byte the font ROM holds at an address: the one listed, else the address's free value (R6, R48, log entry 11). -/
def State.romContents (s : State) (a : RomAddr) : Byte := (readRom s.rom a.toNat).getD (Config.romContents a)

/-- The byte the font ROM answers with at an address, where it is there (R46). -/
def State.romByte (s : State) (a : RomAddr) : Option Byte :=
  if s.romResponds then some (s.romContents a) else none

/-- The bit sampled in receive cell `t` (0 to 255) of an exchange for address `a`: bit `7 - t mod 8` of the byte at
`(a + t div 8) mod 2^24`, else, from a silent ROM, a free value (R43, R46, R174). -/
def State.sampled (s : State) (a : RomAddr) (t : Nat) : Bool :=
  match s.romByte (a + BitVec.ofNat 24 (t / 8)) with
  | some b => b.getLsbD (7 - t % 8)
  | none => Config.romLine s.draws t

/-- The 256 bits sampled in an exchange, in time order. -/
def State.samples (s : State) (a : RomAddr) : List Bool := (List.range 256).map (s.sampled a)

/-- The 290 events of an exchange: select, 32 bits of the read frame, 256 sampled bits, deselect (R84). -/
def State.exchangeEvents (s : State) (a : RomAddr) : List Event :=
  .romSel true :: (msbFirst 32 (readFrame a)).map .romTx ++ (s.samples a).map .romRx ++ [.romSel false]

/-- The 32 bytes an exchange returns, eight sampled bits each (R43, R84). -/
def State.received (s : State) (a : RomAddr) : Glyph :=
  Vector.ofFn fun i => packByte ((List.range 8).map fun k => s.sampled a (8 * i.val + k))

/-- `MemRead(A, 32)` (R84): the exchange's events, one draw used. Its bytes are `State.received`. -/
def State.exchange (s : State) (a : RomAddr) : State :=
  { s.emit (s.exchangeEvents a) with draws := s.draws + 1 }

/-- `G <- MemRead(A, 32)` (R84, R85): the exchange, and its bytes in G. -/
def State.fetchGlyph (s : State) (a : RomAddr) : State :=
  { s.exchange a with g := s.received a }

/-! ### The framebuffer -/

/-- The empty glyph: 32 bytes of 0x00 (R65). -/
def emptyGlyph : Glyph := Vector.replicate 32 0

/-- Every cell 0x00 (R103). -/
def blankGrid : Grid := Vector.replicate 16 (Vector.replicate 12 0)

/-- A row with its active slot, columns 0 and 1, replaced (R101). -/
def setSlot (row : Row) (b0 b1 : Byte) : Row := (row.set 0 b0).set 1 b1

/-- The grid with a glyph in the active slot of every row, byte by byte as SLOT_MAP says (R101). -/
def writeSlot (p : Params) (g : Glyph) (fb : Grid) : Grid :=
  Vector.ofFn fun r => setSlot fb[r] g[p.slotMap[r].1] g[p.slotMap[r].2]

/-- The grid with 0x00 in the active slot of every row (R102). -/
def blankSlot (fb : Grid) : Grid := Vector.ofFn fun r => setSlot fb[r] 0 0

/-- One row shifted: one pass with a carry of 0 into column 0 (R111). -/
def shiftRow (row : Row) : Row := ⟨⟨carryPass false row.toList⟩, by simp [carryPass_length]⟩

/-- Every row shifted (R111, R114). -/
def shiftGrid (fb : Grid) : Grid := Vector.ofFn fun r => shiftRow fb[r]

/-! ### The refresh sequence (R131) -/

/-- One row's events: 80 data bits, then disable, latch, select, enable (R131, R133). -/
def rowEvents (code : BitVec 4) (row : Row) : List Event :=
  ((rowBytes row).flatMap fun b => (msbFirst 8 b).map .ledTx) ++ [.ledOe false, .ledLatch, .ledRow code, .ledOe true]

/-- The events of a REFRESH: rows 0 to 15 in order (R131). -/
def refreshEvents (p : Params) (fb : Grid) : List Event :=
  (List.finRange 16).flatMap fun r => rowEvents p.rowSelect[r] fb[r]

/-- The state after a REFRESH. -/
def State.refresh (s : State) : State := s.emit (refreshEvents s.params s.fb)

/-! ### The character queue -/

/-- The slots after a load: the payload's codes below its count, the old contents from there on (R18, R121). -/
def loadSlots (payload : List Byte) (q : Slots) : Slots :=
  Vector.ofFn fun i => if i.val < payloadCount payload then payloadCode payload i.val else q[i]

/-- The state after a load of a readable payload; none where the payload is too short (R121, R124). -/
def State.loadQueue (s : State) (payload : List Byte) : Option State :=
  if payloadReadable payload then
    some { s with
      q := loadSlots payload s.q
      qlen := BitVec.ofNat 8 (payloadCount payload)
      seq := 0 }
  else none

/-- The code a glyph advance resolves, `Q[SEQ]`; none where there is no such slot (R18, R155). -/
def State.nextCode (s : State) : Option Code := s.q[s.seq.toNat]?

/-! ### Modes

The nearest thing the block has to taking an exception is RESET setting MODE by `init_ok` (R171, R177): nothing is saved,
no mask changes, no vector is fetched. There is no return (R178): MODE is left only by the next RESET. -/

/-- MODE after task initialization succeeded or failed (R24, R150). -/
def modeAfterInit (initOk : Bool) : Mode := if initOk then .idle else .error

/-! ### RESET's unspecified values (R30, R193) -/

/-- The driver chip after a RESET: every part a free value. -/
def unspecifiedSink (draw : Nat) : Sink :=
  ⟨Config.freeShift draw, Config.freeLatch draw, Config.freeEnable draw, Config.freeRow draw⟩

/-- The signals after a RESET: every level a free value. -/
def unspecifiedPins (draw : Nat) : Levels :=
  let v := Config.freeLevel draw
  ⟨v 0, v 1, v 2, v 3, v 4, v 5, v 6, v 7, v 8, v 9, v 10, v 11⟩

/-- The queue's slots after a RESET: every slot a free value. -/
def unspecifiedSlots (draw : Nat) : Slots := Vector.ofFn fun i => Config.freeCode draw i.val

/-! ### The host's side -/

/-- The message a TICK's poll finds, and the state after it: the one given with the tick, else the oldest the host
holds out, taken once (R54, R151, R175). -/
def State.poll (s : State) (given : Option (List Byte)) : Option (List Byte) × State :=
  match given, s.inbox with
  | some payload, _ => (some payload, s)
  | none, payload :: rest => (some payload, { s with inbox := rest })
  | none, [] => (none, s)

/-- The next frame the host has run, and the state after it is taken; none where the host has none. -/
def State.takeFrame (s : State) : Option (Frame × State) :=
  match s.pending with
  | [] => none
  | f :: rest => some (f, { s with pending := rest })

/-- The state with a frame put first among the host's. -/
def State.offerFrame (s : State) (f : Frame) : State := { s with pending := f :: s.pending }

end Sys2Proof.Machine
end

