-- ==== Sys2Proof/Machine/FontRom.lean ====
section
/-! DEFINITION. The font ROM reader's meanings: RESOLVE (R85) and the read frame ROM.READ (R63, R84). -/

namespace Sys2Proof.Machine

/-- RESOLVE `code` (R85): `G <- MemRead(GetAddress(code) mod 2^24, 32)`. It always completes (R86). -/
def execResolve (code : Code) (s : State) : Host.Outcome State Fault Refusal :=
  .next (s.fetchGlyph (glyphAddr s.params code))

/-- ROM.READ `a` (R63, R84): the one exchange the block makes, for a given address. It leaves G as it was, for "nothing else"
but RESOLVE writes it (R15); the sampled bits stand in its events (DESIGN CHOICE, log entry 12). -/
def execRomRead (a : RomAddr) (s : State) : Host.Outcome State Fault Refusal :=
  .next (s.exchange a)

end Sys2Proof.Machine
end

