-- ==== Sys2Proof/Machine/Framebuffer.lean ====
section
/-! DEFINITION. The framebuffer's meanings: WRSLOT (R101), BLANKSLOT (R102), CLRFB (R103). They emit no event. -/

namespace Sys2Proof.Machine

/-- WRSLOT (R101): G into columns 0 and 1 of every row; G keeps its bytes (decision D18). -/
def execWrslot (s : State) : Host.Outcome State Fault Refusal :=
  .next { s with fb := writeSlot s.params s.g s.fb }

/-- BLANKSLOT (R102): 0x00 into columns 0 and 1 of every row; G is not touched. -/
def execBlankslot (s : State) : Host.Outcome State Fault Refusal :=
  .next { s with fb := blankSlot s.fb }

/-- CLRFB (R103): all 192 cells 0x00 (decision D9). -/
def execClrfb (s : State) : Host.Outcome State Fault Refusal :=
  .next { s with fb := blankGrid }

end Sys2Proof.Machine
end

