-- ==== Sys2Proof/Machine/Loader.lean ====
section
/-! DEFINITION. The glyph-queue loader's meaning, LOAD (R121), and the hand-over of a payload, MSG (R61, R183). -/

namespace Sys2Proof.Machine

/-- LOAD `payload` (R121 to R124): the codes into Q, the clamped count into QLEN, SEQ to 0. A payload too short is
refused. -/
def execLoad (payload : List Byte) (s : State) : Host.Outcome State Fault Refusal :=
  match s.loadQueue payload with
  | some t => .next t
  | none => .refused .shortPayload

/-- MSG `payload` (R61, R183): the host holds the payload out; the next tick in mode Idle whose poll reaches it takes it
(R54, R175). The block itself does nothing yet (DESIGN CHOICE, log entry 10). -/
def execMsg (payload : List Byte) (s : State) : Host.Outcome State Fault Refusal :=
  .next { s with inbox := s.inbox ++ [payload] }

end Sys2Proof.Machine
end

