-- ==== Sys2Proof/Machine/Refresh.lean ====
section
/-! DEFINITION. The display refresher's meaning, REFRESH (R131), and the row-select code ROWSEL (R64, R134). -/

namespace Sys2Proof.Machine

/-- REFRESH (R131): the 1344 events of a full pass; no state of the block changes. -/
def execRefresh (s : State) : Host.Outcome State Fault Refusal :=
  .next s.refresh

/-- ROWSEL `v` (R64, R134): the four row-select lines set to the code, one event (DESIGN CHOICE, log entry 13). -/
def execRowsel (v : BitVec 4) (s : State) : Host.Outcome State Fault Refusal :=
  .next (s.emit [.ledRow v])

end Sys2Proof.Machine
end

