-- ==== Sys2Proof/Machine/Reserved.lean ====
section
/-! DEFINITION. The seven unassigned select codes (R68): "A model refuses them: the step has no meaning." -/

namespace Sys2Proof.Machine

/-- Select code 0000 (R68): refused. -/
def execReserved0000 (_ : State) : Host.Outcome State Fault Refusal := .refused (.reservedSelect 0b0000#4)

/-- Select code 1010 (R68): refused. -/
def execReserved1010 (_ : State) : Host.Outcome State Fault Refusal := .refused (.reservedSelect 0b1010#4)

/-- Select code 1011 (R68): refused. -/
def execReserved1011 (_ : State) : Host.Outcome State Fault Refusal := .refused (.reservedSelect 0b1011#4)

/-- Select code 1100 (R68): refused. -/
def execReserved1100 (_ : State) : Host.Outcome State Fault Refusal := .refused (.reservedSelect 0b1100#4)

/-- Select code 1101 (R68): refused. -/
def execReserved1101 (_ : State) : Host.Outcome State Fault Refusal := .refused (.reservedSelect 0b1101#4)

/-- Select code 1110 (R68): refused. -/
def execReserved1110 (_ : State) : Host.Outcome State Fault Refusal := .refused (.reservedSelect 0b1110#4)

/-- Select code 1111 (R68): refused. -/
def execReserved1111 (_ : State) : Host.Outcome State Fault Refusal := .refused (.reservedSelect 0b1111#4)

end Sys2Proof.Machine
end

