-- ==== Sys2Proof/Machine/Scroll.lean ====
section
/-! DEFINITION. The scroll engine's meaning: SHIFT (R111). -/

namespace Sys2Proof.Machine

/-- SHIFT (R110, R111): every row one bit-column to the left. It counts nothing and emits nothing. -/
def execShift (s : State) : Host.Outcome State Fault Refusal :=
  .next { s with fb := shiftGrid s.fb }

end Sys2Proof.Machine
end

