-- ==== Sys2Proof/Machine/Task.lean ====
section
/-! DEFINITION. The display task's meanings: RESET (R150) and TICK (R151), with TICK's steps one definition each. -/

namespace Sys2Proof.Machine

/-- RESET `init_ok` (R150): every piece of the block's state at the value of R30, in any state. What R30 leaves
unspecified is a free value (log entries 7 and 8). It emits no event, and the host's and the platform's side stay. -/
def execReset (initOk : Bool) (s : State) : Host.Outcome State Fault Refusal :=
  .next { s with
    fb := blankGrid
    g := emptyGlyph
    q := unspecifiedSlots s.draws
    qlen := 0
    tickc := 0
    movec := 0
    seq := 0
    blankc := 0
    mode := modeAfterInit initOk
    sink := unspecifiedSink s.draws
    pins := unspecifiedPins s.draws
    draws := s.draws + 1 }

/-- Step 1 of TICK on the poll's result (R152): on a message, blank the framebuffer, load the queue, and set the four
counters to 0; none where the load refuses. -/
def State.messageStep (s : State) : Option (List Byte) → Option State
  | none => some s
  | some payload =>
    match { s with fb := blankGrid }.loadQueue payload with
    | none => none
    | some t => some { t with tickc := 0, movec := 0, seq := 0, blankc := 0 }

/-- Step 2 of TICK (R153): count the tick; on the 30th, SHIFT and count it. -/
def State.cadenceStep (s : State) : State :=
  if s.tickc + 1 = ticksPerShift then
    { s with tickc := 0, fb := shiftGrid s.fb, movec := s.movec + 1 }
  else { s with tickc := s.tickc + 1 }

/-- The glyph advance's first branch on the code it resolves (R155): RESOLVE, WRSLOT, SEQ up. -/
def State.glyphLoad (s : State) (code : Code) : State :=
  let t := s.fetchGlyph (glyphAddr s.params code)
  { t with fb := writeSlot t.params t.g t.fb, seq := t.seq + 1 }

/-- The glyph advance's second branch (R156): BLANKSLOT, BLANKC up; on the fifth, BLANKC and SEQ to 0. -/
def State.blankLoad (s : State) : State :=
  if s.blankc + 1 = blanksPerMessage then { s with fb := blankSlot s.fb, blankc := 0, seq := 0 }
  else { s with fb := blankSlot s.fb, blankc := s.blankc + 1 }

/-- Step 3 of TICK (R154 to R156): on the 16th SHIFT one glyph advance; none where it would read a queue slot that does
not exist (R18). -/
def State.advanceStep (s : State) : Option State :=
  if s.movec = shiftsPerAdvance then
    let t := { s with movec := 0 }
    if t.seq < t.qlen then
      match t.nextCode with
      | some code => some (t.glyphLoad code)
      | none => none
    else some t.blankLoad
  else some s

/-- TICK `msg` (R151): nothing in mode Error (R159); in mode Idle the message, the scroll cadence, the glyph advance and
the refresh, in that order. -/
def execTick (msg : Option (List Byte)) (s : State) : Host.Outcome State Fault Refusal :=
  match s.mode with
  | .error => .next s
  | .idle =>
    match (s.poll msg).2.messageStep (s.poll msg).1 with
    | none => .refused .shortPayload
    | some t =>
      match t.cadenceStep.advanceStep with
      | none => .fault .queueReadPastEnd
      | some u => .next u.refresh

end Sys2Proof.Machine
end

