-- ==== Sys2Proof/Machine/Dispatch.lean ====
section
/-! DEFINITION. One arm per row of spec/opcode_table.json. -/

namespace Sys2Proof.Machine

/-- One operation run to completion (R10). -/
def exec (i : Instr) (s : State) : Host.Outcome State Fault Refusal :=
  match i with
  | .reset initOk => Sys2Proof.Machine.execReset initOk s
  | .load payload => Sys2Proof.Machine.execLoad payload s
  | .clrfb => Sys2Proof.Machine.execClrfb s
  | .shift => Sys2Proof.Machine.execShift s
  | .resolve code => Sys2Proof.Machine.execResolve code s
  | .wrslot => Sys2Proof.Machine.execWrslot s
  | .blankslot => Sys2Proof.Machine.execBlankslot s
  | .refresh => Sys2Proof.Machine.execRefresh s
  | .tick msg => Sys2Proof.Machine.execTick msg s
  | .romRead a => Sys2Proof.Machine.execRomRead a s
  | .msg payload => Sys2Proof.Machine.execMsg payload s
  | .rowsel v => Sys2Proof.Machine.execRowsel v s
  | .reserved0000 => Sys2Proof.Machine.execReserved0000 s
  | .reserved1010 => Sys2Proof.Machine.execReserved1010 s
  | .reserved1011 => Sys2Proof.Machine.execReserved1011 s
  | .reserved1100 => Sys2Proof.Machine.execReserved1100 s
  | .reserved1101 => Sys2Proof.Machine.execReserved1101 s
  | .reserved1110 => Sys2Proof.Machine.execReserved1110 s
  | .reserved1111 => Sys2Proof.Machine.execReserved1111 s

end Sys2Proof.Machine
end

