-- ==== Sys2Proof/Machine/Step.lean ====
section
/-! DEFINITION. One step: the next frame the host presents, decoded and run. -/

namespace Sys2Proof.Machine

/-- One step of the block (R10): the host's next operation, run to completion. With none presented the block is not
running and all state holds (R184). A frame that stands for no operation is refused. -/
def step (s : State) : Host.Outcome State Fault Refusal :=
  match s.takeFrame with
  | none => .next s
  | some (f, t) =>
    match decode f with
    | .ok i => exec i t
    | .error e => .refused (.undecodable e)

/-- The state in which the next step runs a word of the opcode table: its frame presented first (log entry 1). -/
def State.withFetchWord (s : State) (nbits w : Nat) : State :=
  match tableFrame nbits w with
  | some f => s.offerFrame f
  | none => s

end Sys2Proof.Machine
end

