-- ==== Sys2Proof/WellFormed.lean ====
section
/-! DEFINITION. Which operations the spec calls well formed: an assigned select code (R68) and a payload that has the
bytes the block reads (R69, R124). Every other operand value is legal (R70). -/

namespace Sys2Proof

/-- Whether the operation's select code is assigned (R66, R68). -/
def Instr.assigned : Instr → Bool
  | .reserved0000 | .reserved1010 | .reserved1011 | .reserved1100 | .reserved1101 | .reserved1110
  | .reserved1111 => false
  | .reset _ | .load _ | .clrfb | .shift | .resolve _ | .wrslot | .blankslot | .refresh | .tick _ | .romRead _
  | .msg _ | .rowsel _ => true

/-- Whether every payload the operation carries has the bytes the block reads (R69, R124). -/
def Instr.payloadComplete : Instr → Bool
  | .load payload => payloadReadable payload
  | .tick (some payload) => payloadReadable payload
  | .msg payload => payloadReadable payload
  | .tick none => true
  | .reset _ | .clrfb | .shift | .resolve _ | .wrslot | .blankslot | .refresh | .romRead _ | .rowsel _ => true
  | .reserved0000 | .reserved1010 | .reserved1011 | .reserved1100 | .reserved1101 | .reserved1110
  | .reserved1111 => true

/-- The well-formed operations. -/
def WellFormed (i : Instr) : Bool := i.assigned && i.payloadComplete

end Sys2Proof
end

