-- ==== Sys2Proof/Safety.lean ====
section
/-! DEFINITION. The terms claims use: the invariants of the control state (R27) and of the platform's data, what the
matrix shows (R29, R136), the mandatory control order (R133), resting ports and the LED
signals (R205), the error classes (R170 to R174). -/

namespace Sys2Proof.Machine

/-! ### Invariants -/

/-- The ranges of the control state between operations (R27). -/
structure State.InRange (s : State) : Prop where
  tickc : s.tickc.toNat ≤ 29
  movec : s.movec.toNat ≤ 15
  blankc : s.blankc.toNat ≤ 4
  qlen : s.qlen.toNat ≤ 20
  seq : s.seq.toNat ≤ s.qlen.toNat

/-- The platform's data: the font ROM's contents in canonical form, the parameters within rule R6's constraints. -/
structure State.PlatformWf (s : State) : Prop where
  rom : Memory.wf s.rom = true
  params : s.params.wf

/-- A state between operations, as every run from reset meets it. -/
structure State.Inv (s : State) : Prop where
  range : s.InRange
  platform : s.PlatformWf

/-! ### The display -/

/-- What the matrix shows (R29): while enabled, the row code and the 80 bits on it; nothing while disabled. -/
def Sink.shown (k : Sink) : Option (BitVec 4 × BitVec 80) := if k.oen then some (k.rsel, k.ol) else none

/-- The driver chip holds and shows the visible bits of one framebuffer row under that row's code (R136). -/
def Sink.showsRow (k : Sink) (p : Params) (fb : Grid) (r : Fin 16) : Prop :=
  k.sr = visibleWord fb[r] ∧ k.shown = some (p.rowSelect[r], visibleWord fb[r])

/-- The output-enable level after each event is `enabled` or what LED_OE last set, and no latch and no row selection
happens while it is 1 (R133). -/
def quietSelect : Bool → List Event → Bool
  | _, [] => true
  | _, .ledOe v :: es => quietSelect v es
  | enabled, .ledLatch :: es => !enabled && quietSelect enabled es
  | enabled, .ledRow _ :: es => !enabled && quietSelect enabled es
  | enabled, .ledTx _ :: es => quietSelect enabled es
  | enabled, .romSel _ :: es => quietSelect enabled es
  | enabled, .romTx _ :: es => quietSelect enabled es
  | enabled, .romRx _ :: es => quietSelect enabled es

/-- The LED driver port's levels after a row's data and control phase: enabled, the row's code on the row-select lines, the last bit
sent (bit 0 of column 11) on the data line, clock and latch at logical 0 (R131, R182, R205). -/
structure RowSignals (p : Levels) (code : BitVec 4) (row : Row) : Prop where
  ledOen : p.ledOen = true
  ledA0 : p.ledA0 = code.getLsbD 0
  ledA1 : p.ledA1 = code.getLsbD 1
  ledA2 : p.ledA2 = code.getLsbD 2
  ledA3 : p.ledA3 = code.getLsbD 3
  ledSdi : p.ledSdi = (row[11]).getLsbD 0
  ledClk : p.ledClk = false
  ledLe : p.ledLe = false

/-- Both clocks and the latch line rest at logical 0 and the font ROM is deselected, as between operations (R205). -/
structure PortsAtRest (p : Levels) : Prop where
  romCs : p.romCs = false
  romClk : p.romClk = false
  ledClk : p.ledClk = false
  ledLe : p.ledLe = false

/-! ### Operations one after another -/

/-- The second operation from the state the first one leaves, where it leaves one. -/
def thenExec (o : Host.Outcome State Fault Refusal) (i : Instr) : Host.Outcome State Fault Refusal :=
  match o with
  | .next t => exec i t
  | .fault f => .fault f
  | .refused r => .refused r

/-- An operation done `n` times, stopping where it leaves no state. -/
def times : Nat → Instr → State → Host.Outcome State Fault Refusal
  | 0, _, s => .next s
  | n + 1, i, s => thenExec (times n i s) i

/-! ### Error classes: met, never signalled or recorded (R170) -/

/-- The four classes of rules R171 to R174. -/
inductive ErrorClass where
  /-- E_INIT, initialization failure. -/
  | init
  /-- E_COUNT, oversized character count. -/
  | count
  /-- E_CODE, unresolvable character code. -/
  | code
  /-- E_ROM, font ROM non-response. -/
  | rom
  deriving DecidableEq, Repr

/-- Whether rules 1 to 3 of the address computation all fail (R172). -/
def unresolvable (code : Code) : Bool :=
  let msb := (codeMsb code).toNat
  let lsb := (codeLsb code).toNat
  !(decide (0xA1 ≤ lsb) && (decide (0xA1 ≤ msb ∧ msb ≤ 0xA9) || decide (0xB0 ≤ msb ∧ msb ≤ 0xF7)))

/-- The classes a load of a payload meets (R173). -/
def loadErrors (payload : List Byte) : List ErrorClass :=
  if 20 < (payload.getD 1 0).toNat then [.count] else []

/-- The classes a resolve of a code meets (R172, R174). -/
def resolveErrors (s : State) (code : Code) : List ErrorClass :=
  (if unresolvable code then [.code] else []) ++ (if s.romResponds then [] else [.rom])

/-- The classes met by a TICK in mode Idle: at the load of its message, else at its glyph advance (R176). -/
def tickErrors (s : State) (msg : Option (List Byte)) : List ErrorClass :=
  match (s.poll msg).1 with
  | some payload => loadErrors payload
  | none =>
    if s.tickc = 29 ∧ s.movec = 15 ∧ s.seq < s.qlen then
      match s.nextCode with
      | some code => resolveErrors s code
      | none => []
    else []

/-- The error classes an operation meets in a state. -/
def errorsMet (i : Instr) (s : State) : List ErrorClass :=
  match i with
  | .reset initOk => if initOk then [] else [.init]
  | .load payload => loadErrors payload
  | .resolve code => resolveErrors s code
  | .romRead _ => if s.romResponds then [] else [.rom]
  | .tick msg => if s.mode = .idle then tickErrors s msg else []
  | .clrfb | .shift | .wrslot | .blankslot | .refresh | .msg _ | .rowsel _ => []
  | .reserved0000 | .reserved1010 | .reserved1011 | .reserved1100 | .reserved1101 | .reserved1110
  | .reserved1111 => []

end Sys2Proof.Machine
end

