-- ==== Sys2Proof/Certificates/Slice0/Obligations.lean ====
section
/-! DEFINITION. The statements for the provers. Where a conclusion writes the next state as `{ s with … }`, every field not
named there is unchanged: that is the operation's frame (fields of State: framebuffer, glyph buffer, queue, control state,
driver chip, signals, trace, the font ROM's contents, the host's side, the parameters). -/

open Sys2Proof Sys2Proof.Machine

/-! ### Steps and encodings -/

/-- R10, R184: a step runs the operation the host's next frame stands for, with that frame taken from the host's list; with no
frame the state holds; a frame that stands for no operation is refused. The list of frames is the model's (log entry 1). -/
def Obligations.StepRunsPresentedFrame : Prop :=
  (∀ (s : State) (f : Frame) (rest : List Frame) (i : Instr), s.pending = f :: rest → decode f = .ok i →
    step s = exec i { s with pending := rest }) ∧
  (∀ (s : State) (f : Frame) (rest : List Frame) (e : DecodeError), s.pending = f :: rest → decode f = .error e →
    step s = .refused (.undecodable e)) ∧
  (∀ s : State, s.pending = [] → step s = .next s)

/-- Decoding an operation's own frame gives it back, for every operation and every operand (select codes R66, R68; operand
bytes log entry 2). -/
def Obligations.DecodeOfEncodeIsIdentity : Prop := ∀ i : Instr, decode (encode i) = .ok i

/-- Words written out from R66 and R68 (all sixteen select codes), R61 (MSG), R63 (ROMFRAME) and R64 (ROWSEL) decode to what they
stand for. The bytes that carry operands of the op port are the model's (log entry 2). -/
def Obligations.SpecWordsDecode : Prop :=
  decode ⟨.op4, [0b0000]⟩ = .ok .reserved0000 ∧
  decode ⟨.op4, [0b0001, 0b1]⟩ = .ok (.reset true) ∧
  decode ⟨.op4, [0b0001, 0b0]⟩ = .ok (.reset false) ∧
  decode ⟨.op4, [0b0010, 0x00, 0x03, 0x4E, 0x2D, 0x65, 0x87, 0x5B, 0x57]⟩ =
    .ok (.load [0x00, 0x03, 0x4E, 0x2D, 0x65, 0x87, 0x5B, 0x57]) ∧
  decode ⟨.op4, [0b0011]⟩ = .ok .clrfb ∧
  decode ⟨.op4, [0b0100]⟩ = .ok .shift ∧
  decode ⟨.op4, [0b0101, 0xD6, 0xD0]⟩ = .ok (.resolve 0xD6D0) ∧
  decode ⟨.op4, [0b0110]⟩ = .ok .wrslot ∧
  decode ⟨.op4, [0b0111]⟩ = .ok .blankslot ∧
  decode ⟨.op4, [0b1000]⟩ = .ok .refresh ∧
  decode ⟨.op4, [0b1001]⟩ = .ok (.tick none) ∧
  decode ⟨.op4, [0b1001, 0b0]⟩ = .ok (.tick none) ∧
  decode ⟨.op4, [0b1001, 0b1, 0x41, 0x02, 0xB0, 0xA1, 0xA1, 0xA1]⟩ =
    .ok (.tick (some [0x41, 0x02, 0xB0, 0xA1, 0xA1, 0xA1])) ∧
  decode ⟨.op4, [0b1010]⟩ = .ok .reserved1010 ∧
  decode ⟨.op4, [0b1011]⟩ = .ok .reserved1011 ∧
  decode ⟨.op4, [0b1100]⟩ = .ok .reserved1100 ∧
  decode ⟨.op4, [0b1101]⟩ = .ok .reserved1101 ∧
  decode ⟨.op4, [0b1110]⟩ = .ok .reserved1110 ∧
  decode ⟨.op4, [0b1111]⟩ = .ok .reserved1111 ∧
  decode ⟨.msg, [0x7F, 0x01, 0xD6, 0xD0]⟩ = .ok (.msg [0x7F, 0x01, 0xD6, 0xD0]) ∧
  decode ⟨.romFrame, [0b00000011, 0b00010010, 0b00101110, 0b00100000]⟩ = .ok (.romRead 0x122E20) ∧
  decode ⟨.rowSel, [0b0101]⟩ = .ok (.rowsel 5)

/-- What stands for no operation, and why: a ROMFRAME with another first byte than 0x03 (R63, R70); an OP4 or ROWSEL first byte wider
than four bits; a RESET or TICK flag byte wider than one bit; a frame that ends before the operand its operation needs. The
bytes of the op port are the model's (log entry 2). -/
def Obligations.ForeignFramesRejected : Prop :=
  (∀ (o a2 a1 a0 : Byte) (rest : List Byte), o ≠ 0x03 →
    decode ⟨.romFrame, o :: a2 :: a1 :: a0 :: rest⟩ = .error .notReadOpcode) ∧
  (∀ (b : Byte) (rest : List Byte), 16 ≤ b.toNat →
    decode ⟨.op4, b :: rest⟩ = .error .fieldTooWide ∧ decode ⟨.rowSel, b :: rest⟩ = .error .fieldTooWide) ∧
  (∀ (b : Byte) (rest : List Byte), 2 ≤ b.toNat →
    decode ⟨.op4, 0b0001 :: b :: rest⟩ = .error .fieldTooWide ∧
    decode ⟨.op4, 0b1001 :: b :: rest⟩ = .error .fieldTooWide) ∧
  (∀ bytes : List Byte, bytes.length < 4 → decode ⟨.romFrame, bytes⟩ = .error .operandMissing) ∧
  (∀ bytes : List Byte, bytes.length < 2 → decode ⟨.op4, 0b0101 :: bytes⟩ = .error .operandMissing) ∧
  decode ⟨.op4, [0b0001]⟩ = .error .operandMissing ∧
  decode ⟨.op4, []⟩ = .error .operandMissing ∧
  decode ⟨.rowSel, []⟩ = .error .operandMissing

/-- R68: the seven unassigned select codes are refused, each by its code. -/
def Obligations.UnassignedCodesRefused : Prop :=
  ∀ s : State,
    exec .reserved0000 s = .refused (.reservedSelect 0b0000) ∧ exec .reserved1010 s = .refused (.reservedSelect 0b1010) ∧
    exec .reserved1011 s = .refused (.reservedSelect 0b1011) ∧ exec .reserved1100 s = .refused (.reservedSelect 0b1100) ∧
    exec .reserved1101 s = .refused (.reservedSelect 0b1101) ∧ exec .reserved1110 s = .refused (.reservedSelect 0b1110) ∧
    exec .reserved1111 s = .refused (.reservedSelect 0b1111)

/-! ### RESET -/

/-- R150: RESET from any state, its operand deciding MODE; it emits no event. -/
def Obligations.ResetSetsBlockState : Prop :=
  ∀ (initOk : Bool) (s : State), ∃ t, exec (.reset initOk) s = .next t ∧
    (∀ (r : Fin 16) (c : Fin 12), t.fb[r][c] = 0) ∧ (∀ i : Fin 32, t.g[i] = 0) ∧
    t.qlen = 0 ∧ t.tickc = 0 ∧ t.movec = 0 ∧ t.seq = 0 ∧ t.blankc = 0 ∧
    t.mode = (if initOk then .idle else .error) ∧ t.trace = s.trace

/-- RESET leaves the platform's and the host's side alone: the ROM's contents and presence, the parameters, the messages and
operations held out (R31; the host's fields are the model's, log entries 1 and 10). -/
def Obligations.ResetKeepsOutside : Prop :=
  ∀ (initOk : Bool) (s : State), ∃ t, exec (.reset initOk) s = .next t ∧
    (∀ a : RomAddr, t.romByte a = s.romByte a) ∧ t.rom = s.rom ∧ t.romResponds = s.romResponds ∧
    t.params = s.params ∧ t.inbox = s.inbox ∧ t.pending = s.pending

/-- State.reset holds what R30 gives: framebuffer and G zero, empty queue, counters 0, MODE Idle; and it is what RESET with
`init_ok` gives but for the values R30 leaves unspecified (those of State.reset are the model's choice, log entry 9). -/
def Obligations.PowerUpState : Prop :=
  (∀ (r : Fin 16) (c : Fin 12), State.reset.fb[r][c] = 0) ∧ (∀ i : Fin 32, State.reset.g[i] = 0) ∧
  State.reset.qlen = 0 ∧ State.reset.tickc = 0 ∧ State.reset.movec = 0 ∧ State.reset.seq = 0 ∧ State.reset.blankc = 0 ∧
  State.reset.mode = .idle ∧
  ∃ q k p, exec (.reset true) State.reset = .next { State.reset with q := q, sink := k, pins := p, draws := 1 }

/-! ### LOAD and MSG -/

/-- R121 to R124: with `N` byte 1 of the payload and `n = min(N, 20)` (the clamp: the spec's resolution C6), a payload of fewer than
2 or `2 + 2*n` bytes is refused (the spec's own decision D15); any other loads its first `n` codes, msb first, sets QLEN to `n`
and SEQ to 0, keeps slots `n` to 19, and changes nothing else (log entries 19 and 25). -/
def Obligations.LoadFillsQueue : Prop :=
  (∀ (s : State) (payload : List Byte),
    payload.length < 2 ∨ payload.length < 2 + 2 * min (payload.getD 1 0).toNat 20 →
    exec (.load payload) s = .refused .shortPayload) ∧
  (∀ (s : State) (tag count : Byte) (tail : List Byte), 2 * min count.toNat 20 ≤ tail.length →
    ∃ q', exec (.load (tag :: count :: tail)) s =
        .next { s with q := q', qlen := BitVec.ofNat 8 (min count.toNat 20), seq := 0 } ∧
      ∀ i : Fin 20,
        (i.val < min count.toNat 20 →
          (q'[i]).toNat = (tail.getD (2 * i.val) 0).toNat * 256 + (tail.getD (2 * i.val + 1) 0).toNat) ∧
        (min count.toNat 20 ≤ i.val → q'[i] = s.q[i]))

/-- R124, R152 (the spec's own decision D15, its clamp resolution C6): a TICK in mode Idle that carries a payload shorter than 2 or than `2 + 2*min(N, 20)`
bytes is refused, as a LOAD of it is. -/
def Obligations.ShortMessageRefused : Prop :=
  ∀ (s : State) (payload : List Byte), s.mode = .idle →
    payload.length < 2 ∨ payload.length < 2 + 2 * min (payload.getD 1 0).toNat 20 →
    exec (.tick (some payload)) s = .refused .shortPayload

/-- R69, R61: the tag and whatever stands after the codes the block reads make no difference to LOAD (how many it reads: the
clamp, resolution C6). -/
def Obligations.LoadIgnoresTagAndTail : Prop :=
  ∀ (s : State) (tag tag' count : Byte) (codes tail tail' : List Byte), codes.length = 2 * min count.toNat 20 →
    exec (.load (tag :: count :: codes ++ tail)) s = exec (.load (tag' :: count :: codes ++ tail')) s

/-- The host's hand-over of a payload: it waits at the poll behind earlier ones, and nothing else changes. The list of waiting
messages is the model's choice (log entry 10). -/
def Obligations.MsgWaitsAtPoll : Prop :=
  ∀ (s : State) (payload : List Byte), exec (.msg payload) s = .next { s with inbox := s.inbox ++ [payload] }

/-! ### Framebuffer operations -/

/-- R103: CLRFB makes all 192 cells 0x00 and changes nothing else. -/
def Obligations.ClrfbClearsEveryCell : Prop :=
  ∀ s : State, ∃ fb', exec .clrfb s = .next { s with fb := fb' } ∧ ∀ (r : Fin 16) (c : Fin 12), fb'[r][c] = 0

/-- R101: WRSLOT writes columns 0 and 1 of every row from G as SLOT_MAP says, keeps columns 2 to 11, and changes nothing
else; that G keeps its bytes (R15) is the spec's own decision D18 (log entry 19). -/
def Obligations.WrslotWritesActiveSlot : Prop :=
  ∀ s : State, ∃ fb', exec .wrslot s = .next { s with fb := fb' } ∧
    ∀ r : Fin 16, fb'[r][0] = s.g[s.params.slotMap[r].1] ∧ fb'[r][1] = s.g[s.params.slotMap[r].2] ∧
      ∀ c : Fin 12, 2 ≤ c.val → fb'[r][c] = s.fb[r][c]

/-- R102: BLANKSLOT writes 0x00 into columns 0 and 1 of every row, keeps columns 2 to 11, and changes nothing else. -/
def Obligations.BlankslotClearsActiveSlot : Prop :=
  ∀ s : State, ∃ fb', exec .blankslot s = .next { s with fb := fb' } ∧
    ∀ r : Fin 16, fb'[r][0] = 0 ∧ fb'[r][1] = 0 ∧ ∀ c : Fin 12, 2 ≤ c.val → fb'[r][c] = s.fb[r][c]

/-- R102's corner case: BLANKSLOT is WRSLOT with an all-zero G, whatever SLOT_MAP is. -/
def Obligations.BlankslotIsWrslotOfZeroGlyph : Prop :=
  ∀ s : State, (∀ i : Fin 32, s.g[i] = 0) → exec .wrslot s = exec .blankslot s

/-! ### SHIFT -/

/-- R111, bit for bit: each bit moves up one place, bit 7 of a byte to bit 0 of the next column, 0 into column 0, and the old
top bit of column 11 is lost; nothing else changes. -/
def Obligations.ShiftMovesEveryBitUp : Prop :=
  ∀ s : State, ∃ fb', exec .shift s = .next { s with fb := fb' } ∧
    ∀ (r : Fin 16) (j : Fin 12),
      (∀ k : Fin 8, 1 ≤ k.val → (fb'[r][j]).getLsbD k = (s.fb[r][j]).getLsbD (k - 1)) ∧
      (fb'[r][j]).getLsbD 0 =
        if h : 1 ≤ j.val then (s.fb[r][j.val - 1]'(by omega)).getLsbD 7 else false

/-- R12, R111: SHIFT doubles every row word modulo 2^96. -/
def Obligations.ShiftDoublesRowWord : Prop :=
  ∀ s : State, ∃ fb', exec .shift s = .next { s with fb := fb' } ∧
    ∀ r : Fin 16, (rowWord fb'[r]).toNat = (rowWord s.fb[r]).toNat * 2 % 2 ^ 96

/-- R113, R114: a row after SHIFT depends on that row before it and on nothing else. -/
def Obligations.ShiftRowsIndependent : Prop :=
  ∀ (s s' t t' : State) (r : Fin 16), s.fb[r] = s'.fb[r] → exec .shift s = .next t → exec .shift s' = .next t' →
    t.fb[r] = t'.fb[r]

/-- R105, R113: any number of SHIFTs multiplies every row word by that power of two, modulo 2^96; so 96 of them leave every
cell 0x00. -/
def Obligations.RepeatedShiftMovesRowWord : Prop :=
  ∀ (n : Nat) (s : State), ∃ fb', times n .shift s = .next { s with fb := fb' } ∧
    (∀ r : Fin 16, (rowWord fb'[r]).toNat = (rowWord s.fb[r]).toNat * 2 ^ n % 2 ^ 96) ∧
    (96 ≤ n → ∀ (r : Fin 16) (c : Fin 12), fb'[r][c] = 0)

/-- R105: 16 SHIFTs move a glyph from the active slot to columns 2 and 3, every column up by two, and leave the slot empty. -/
def Obligations.SixteenShiftsMoveOneSlot : Prop :=
  ∀ s : State, ∃ fb', times 16 .shift s = .next { s with fb := fb' } ∧
    ∀ r : Fin 16, fb'[r][0] = 0 ∧ fb'[r][1] = 0 ∧
      ∀ c : Fin 10, fb'[r][c.val + 2] = s.fb[r][c.val]

/-! ### The font ROM reader -/

/-- R81, R82, R84, R85, with R42 and R43: RESOLVE selects the ROM, sends 0x03 and the three bytes of
`GetAddress(code) mod 2^24`, most significant bit first, samples 256 bits, deselects; G is those bits packed; where the ROM
answers, its byte at the address plus `i`, modulo 2^24, is `G[i]`. Whatever the ROM does, the operation completes. The
truncation is the spec's own decision D5, the consecutive bytes D6 (log entries 11, 15 and 19). -/
def Obligations.ResolveFetchesGlyph : Prop :=
  ∀ (s : State) (code : Code),
    let msb := code.toNat / 256
    let lsb := code.toNat % 256
    let base := s.params.fontBase.toNat
    let a : RomAddr := BitVec.ofNat 24
      (if 0xA4 ≤ msb ∧ msb ≤ 0xA8 ∧ 0xA1 ≤ lsb then base
       else if 0xA1 ≤ msb ∧ msb ≤ 0xA9 ∧ 0xA1 ≤ lsb then ((msb - 0xA1) * 94 + (lsb - 0xA1)) * 32 + base
       else if 0xB0 ≤ msb ∧ msb ≤ 0xF7 ∧ 0xA1 ≤ lsb then ((msb - 0xB0) * 94 + (lsb - 0xA1) + 846) * 32 + base
       else 0)
    ∃ (t : State) (rx : List Bool), exec (.resolve code) s = .next t ∧ rx.length = 256 ∧
      t.trace = s.trace ++ (.romSel true :: (msbFirst 8 0x03 ++ msbFirst 8 (a.extractLsb' 16 8) ++
        msbFirst 8 (a.extractLsb' 8 8) ++ msbFirst 8 (a.extractLsb' 0 8)).map .romTx ++ rx.map .romRx ++ [.romSel false]) ∧
      (∀ (i : Fin 32) (k : Fin 8), rx[8 * i.val + k.val]? = some ((t.g[i]).getLsbD (7 - k.val))) ∧
      (∀ (i : Fin 32) (b : Byte), s.romByte (BitVec.ofNat 24 (a.toNat + i.val)) = some b → t.g[i] = b)

/-- R63, R84, R42, R43 for the frame alone: ROM.READ makes the exchange for the address it is given; where the ROM answers, the
samples are its bytes from there on, each most significant bit first; G keeps its bytes (R15). That the bytes are consecutive,
modulo 2^24, is the spec's own decision D6 (log entries 11, 15 and 19); that the frame is a step of its own is the model's choice
(log entry 12). -/
def Obligations.RomReadExchange : Prop :=
  ∀ (s : State) (a : RomAddr), ∃ (t : State) (rx : List Bool), exec (.romRead a) s = .next t ∧ rx.length = 256 ∧
    t.trace = s.trace ++ (.romSel true :: (msbFirst 32 (BitVec.ofNat 32 (0x03000000 + a.toNat))).map .romTx ++
      rx.map .romRx ++ [.romSel false]) ∧
    t.g = s.g ∧
    (∀ (i : Fin 32) (b : Byte), s.romByte (BitVec.ofNat 24 (a.toNat + i.val)) = some b →
      ∀ k : Fin 8, rx[8 * i.val + k.val]? = some (b.getLsbD (7 - k.val)))

/-- R80, R86, R15: RESOLVE changes G, and RESOLVE and ROM.READ change the trace, the font ROM port's signals and the draw counter
(log entry 6), and nothing else: not the framebuffer, the queue, the control state, MODE, the LED driver chip, nor any byte of
the ROM; ROM.READ (log entry 12) not G. -/
def Obligations.ExchangeFrame : Prop :=
  ∀ (s : State) (i : Instr), ((∃ code, i = .resolve code) ∨ ∃ a, i = .romRead a) →
    ∃ g' tr p' d, exec i s = .next { s with g := g', trace := tr, pins := p', draws := d } ∧
      ((∃ a, i = .romRead a) → g' = s.g) ∧
      p'.ledSdi = s.pins.ledSdi ∧ p'.ledClk = s.pins.ledClk ∧ p'.ledLe = s.pins.ledLe ∧ p'.ledOen = s.pins.ledOen ∧
      p'.ledA0 = s.pins.ledA0 ∧ p'.ledA1 = s.pins.ledA1 ∧ p'.ledA2 = s.pins.ledA2 ∧ p'.ledA3 = s.pins.ledA3

/-- R48, R80, R85: from any two states with the same answering ROM and the same parameters RESOLVE gives the same G and the same
events; so the same code resolved twice in a row, from an unchanged ROM that answers, gives the same glyph and the same
events (that a ROM answers all exchanges of a run or none: log entry 15). -/
def Obligations.ResolveIsPure : Prop :=
  (∀ (s s' : State) (code : Code), s.rom = s'.rom → s.romResponds = true → s'.romResponds = true → s.params = s'.params →
    ∃ t t' es, exec (.resolve code) s = .next t ∧ exec (.resolve code) s' = .next t' ∧
      t.g = t'.g ∧ t.trace = s.trace ++ es ∧ t'.trace = s'.trace ++ es) ∧
  (∀ (s : State) (code : Code), s.romResponds = true →
    ∃ t u es, exec (.resolve code) s = .next t ∧ exec (.resolve code) t = .next u ∧
      u.g = t.g ∧ t.trace = s.trace ++ es ∧ u.trace = t.trace ++ es)

/-- R84, R181, R205 (the spec's own decisions D2 and D3; log entry 18): after RESOLVE and after ROM.READ the font ROM is deselected and
its clock at 0, ROM_DO holds the last address bit sent, ROM_DI the last bit sampled, which is RESOLVE's `G[31][0]`. -/
def Obligations.ExchangeLeavesSignals : Prop :=
  (∀ (s : State) (code : Code), ∃ t pre, exec (.resolve code) s = .next t ∧
    t.trace = pre ++ [.romRx t.pins.romDi, .romSel false] ∧ t.pins.romCs = false ∧ t.pins.romClk = false ∧
    t.pins.romDo = (glyphAddr s.params code).getLsbD 0 ∧ t.pins.romDi = (t.g[31]).getLsbD 0) ∧
  (∀ (s : State) (a : RomAddr), ∃ t pre, exec (.romRead a) s = .next t ∧
    t.trace = pre ++ [.romRx t.pins.romDi, .romSel false] ∧ t.pins.romCs = false ∧ t.pins.romClk = false ∧
    t.pins.romDo = a.getLsbD 0)

/-- R49, R83: the address of a code is the literal 0 or `FONT_BASE` plus 32 times an index of at most 7614. -/
def Obligations.GlyphAddressRange : Prop :=
  ∀ (base : Nat) (code : Code), getAddress base code = 0 ∨ ∃ idx, idx ≤ 7614 ∧ getAddress base code = base + 32 * idx

/-! ### REFRESH and ROWSEL -/

/-- R131, R44: the 1344 events of a REFRESH, row by row: 80 data bits of columns 2 to 11, most significant bit first, then
disable, latch, select, enable; and no state of the block changes. That the driver chip and the signals follow the events is R29
and R205, the spec's own decisions D16 and D3 (log entry 18, DEDUCED). -/
def Obligations.RefreshSendsRows : Prop :=
  ∀ s : State, ∃ es, exec .refresh s = .next { s with
        trace := s.trace ++ es, sink := es.foldl Sink.apply s.sink, pins := es.foldl Event.drive s.pins } ∧
    es.length = 1344 ∧
    ∀ r : Fin 16,
      (∀ k : Fin 80, es[84 * r.val + k.val]? =
        some (.ledTx ((s.fb[r][2 + k.val / 8]'(by omega)).getLsbD (7 - k.val % 8)))) ∧
      es[84 * r.val + 80]? = some (.ledOe false) ∧ es[84 * r.val + 81]? = some .ledLatch ∧
      es[84 * r.val + 82]? = some (.ledRow s.params.rowSelect[r]) ∧ es[84 * r.val + 83]? = some (.ledOe true)

/-- R135: the events of a REFRESH depend on columns 2 to 11 and ROW_SELECT and on nothing else, and a second REFRESH right
after the first gives the same events. -/
def Obligations.RefreshDependsOnVisibleColumns : Prop :=
  (∀ s s' : State, s.params.rowSelect = s'.params.rowSelect →
    (∀ (r : Fin 16) (c : Fin 12), 2 ≤ c.val → s.fb[r][c] = s'.fb[r][c]) →
    ∃ t t' es, exec .refresh s = .next t ∧ exec .refresh s' = .next t' ∧
      t.trace = s.trace ++ es ∧ t'.trace = s'.trace ++ es) ∧
  (∀ s : State, ∃ t u es, exec .refresh s = .next t ∧ exec .refresh t = .next u ∧
    t.trace = s.trace ++ es ∧ u.trace = t.trace ++ es)

/-- R136: in the course of a REFRESH, from the end of row `r`'s control phase to the end of row `r+1`'s data phase the matrix
shows row `r`'s 80 bits under row `r`'s code, and between a row's disable and its enable it shows nothing (the chip is the
spec's own decision D16, log entry 18). -/
def Obligations.RefreshShowsEachRow : Prop :=
  ∀ s : State, ∃ t es, exec .refresh s = .next t ∧ t.trace = s.trace ++ es ∧
    (∀ (r : Fin 16) (n : Nat), 84 * (r.val + 1) ≤ n → n ≤ 84 * (r.val + 1) + 80 →
      ((es.take n).foldl Sink.apply s.sink).shown = some (s.params.rowSelect[r], visibleWord s.fb[r])) ∧
    (∀ (r : Fin 16) (n : Nat), 84 * r.val + 81 ≤ n → n ≤ 84 * r.val + 83 →
      ((es.take n).foldl Sink.apply s.sink).shown = none)

/-- R133, R203: no latch pulse and no row selection happens while the output is enabled, in any REFRESH or TICK, whatever the
level before it. -/
def Obligations.LatchAndSelectOnlyWhileDisabled : Prop :=
  ∀ (s t : State) (i : Instr), (i = .refresh ∨ ∃ msg, i = .tick msg) → exec i s = .next t →
    ∃ es, t.trace = s.trace ++ es ∧ ∀ enabled, quietSelect enabled es = true

/-- R210, R205 (the bit cells are the spec's own decision D3): a REFRESH spends 2560 settle delays, an exchange with the font ROM,
RESOLVE's or ROM.READ's, 576. -/
def Obligations.SettleDelaysSpent : Prop :=
  (∀ s : State, ∃ t es, exec .refresh s = .next t ∧ t.trace = s.trace ++ es ∧ settleDelays es = 2560) ∧
  (∀ (s : State) (code : Code), ∃ t es, exec (.resolve code) s = .next t ∧ t.trace = s.trace ++ es ∧
    settleDelays es = 576) ∧
  (∀ (s : State) (a : RomAddr), ∃ t es, exec (.romRead a) s = .next t ∧ t.trace = s.trace ++ es ∧
    settleDelays es = 576)

/-- R205, event by event, with the signals of R181 and R182 (the spec's own decisions D2, D3 and D17; log entry 18): the pin-level
actions of each bit cell in their order, and the levels they leave. -/
def Obligations.EventsDriveSignals : Prop :=
  ∀ (p : Levels) (b : Bool) (v : BitVec 4),
    (Event.romTx b).cell = [.put .romDo b, .delay, .put .romClk true, .put .romClk false, .delay] ∧
    (Event.romRx b).cell = [.delay, .put .romClk true, .sample b, .put .romClk false, .delay] ∧
    (Event.ledTx b).cell = [.put .ledSdi b, .delay, .put .ledClk true, .put .ledClk false, .delay] ∧
    Event.ledLatch.cell = [.put .ledLe true, .put .ledLe false] ∧
    (Event.ledOe b).cell = [.put .ledOen b] ∧
    (Event.ledRow v).cell = [.put .ledA0 (v.getLsbD 0), .put .ledA1 (v.getLsbD 1), .put .ledA2 (v.getLsbD 2),
      .put .ledA3 (v.getLsbD 3)] ∧
    (Event.romSel b).cell = [.put .romCs b] ∧
    Event.drive p (Event.romSel b) = { p with romCs := b } ∧
    Event.drive p (Event.romTx b) = { p with romDo := b, romClk := false } ∧
    Event.drive p (Event.romRx b) = { p with romDi := b, romClk := false } ∧
    Event.drive p (Event.ledTx b) = { p with ledSdi := b, ledClk := false } ∧
    Event.drive p (Event.ledOe b) = { p with ledOen := b } ∧
    Event.drive p .ledLatch = { p with ledLe := false } ∧
    Event.drive p (Event.ledRow v) = { p with
      ledA0 := v.getLsbD 0, ledA1 := v.getLsbD 1, ledA2 := v.getLsbD 2, ledA3 := v.getLsbD 3 }

/-- R131, R182, R205 (the spec's own decisions D2 and D3; log entry 18): after every REFRESH, and after every TICK in mode Idle that
answers, LED_OEN is 1, the row-select lines hold `ROW_SELECT(15)`, LED_SDI the last bit sent, `FB[15][11][0]`, and the shift
clock and the latch line are 0. -/
def Obligations.RefreshLeavesSignals : Prop :=
  (∀ s : State, ∃ t, exec .refresh s = .next t ∧ RowSignals t.pins (t.params.rowSelect[15]) (t.fb[15])) ∧
  (∀ (s t : State) (msg : Option (List Byte)), s.mode = .idle → exec (.tick msg) s = .next t →
    RowSignals t.pins (t.params.rowSelect[15]) (t.fb[15]))

/-- R134, R182, R205 (the spec's own decisions D3 and D17): a row-select code goes to the four row-select lines, line `k` getting bit `k`, and to the driver chip's row code; one
event, and nothing else changes. That the format has a step of its own is the model's choice (log entry 13). -/
def Obligations.RowselDrivesRowLines : Prop :=
  ∀ (s : State) (v : BitVec 4), exec (.rowsel v) s = .next { s with
    trace := s.trace ++ [.ledRow v]
    sink := { s.sink with rsel := v }
    pins := { s.pins with
      ledA0 := v.getLsbD 0, ledA1 := v.getLsbD 1, ledA2 := v.getLsbD 2, ledA3 := v.getLsbD 3 } }

/-! ### TICK -/

/-- R159: a TICK in mode Error changes no state and emits no event, with a message or without. -/
def Obligations.TickInErrorDoesNothing : Prop :=
  ∀ (s : State) (msg : Option (List Byte)), s.mode = .error → exec (.tick msg) s = .next s

/-- R151, R160: in mode Idle, from a state within R27's ranges, a TICK whose message, if any, is complete answers a next state; it
emits 1634 events where it resolves a glyph and 1344 where it does not. Which message the poll finds is `State.poll`'s
(log entry 10). -/
def Obligations.IdleTickCompletes : Prop :=
  ∀ (s : State) (msg : Option (List Byte)), s.mode = .idle → s.InRange →
    (∀ payload, (s.poll msg).1 = some payload → payloadReadable payload = true) →
    ∃ t es, exec (.tick msg) s = .next t ∧ t.trace = s.trace ++ es ∧
      es.length =
        if (s.poll msg).1 = none ∧ s.tickc = 29 ∧ s.movec = 15 ∧ s.seq < s.qlen then 1634 else 1344

/-- R152: a TICK with a complete message is CLRFB, then LOAD, then the counters at 0 and this tick counted, then REFRESH: no SHIFT
and no glyph advance, whatever the counters were. -/
def Obligations.MessageTick : Prop :=
  ∀ (s : State) (payload : List Byte), s.mode = .idle → payloadReadable payload = true →
    ∃ u, thenExec (exec .clrfb s) (.load payload) = .next u ∧
      exec (.tick (some payload)) s = exec .refresh { u with tickc := 1, movec := 0, seq := 0, blankc := 0 }

/-- R54, R175: a TICK in mode Idle given no message takes the oldest one held out at the poll, once; one given a message leaves those
held out where they are. The list is the model's (log entry 10). -/
def Obligations.TickTakesWaitingMessageOnce : Prop :=
  (∀ (s : State) (payload : List Byte) (rest : List (List Byte)), s.mode = .idle → s.inbox = payload :: rest →
    exec (.tick none) s = exec (.tick (some payload)) { s with inbox := rest }) ∧
  (∀ (s t : State) (payload : List Byte), exec (.tick (some payload)) s = .next t → t.inbox = s.inbox)

/-- R153, R157: a TICK with no message that is not the 30th counts itself and refreshes. -/
def Obligations.PlainTick : Prop :=
  ∀ s : State, s.mode = .idle → s.inbox = [] → s.tickc ≠ 29 → s.movec ≠ 16 →
    exec (.tick none) s = exec .refresh { s with tickc := s.tickc + 1 }

/-- R153: the 30th TICK runs SHIFT, counts it in MOVEC and starts the count of ticks again; then REFRESH. -/
def Obligations.ThirtiethTickShifts : Prop :=
  ∀ s : State, s.mode = .idle → s.inbox = [] → s.tickc = 29 → s.movec ≠ 15 →
    ∃ u, exec .shift s = .next u ∧ exec (.tick none) s = exec .refresh { u with tickc := 0, movec := s.movec + 1 }

/-- R155: the TICK of the 16th SHIFT, with `SEQ < QLEN`, resolves `Q[SEQ]` after the SHIFT, writes the slot, and moves SEQ on;
BLANKC is not changed; then REFRESH. -/
def Obligations.GlyphAdvanceTick : Prop :=
  ∀ (s : State) (code : Code), s.mode = .idle → s.inbox = [] → s.tickc = 29 → s.movec = 15 →
    s.seq < s.qlen → s.q[s.seq.toNat]? = some code →
    ∃ u v w, exec .shift s = .next u ∧ exec (.resolve code) { u with tickc := 0, movec := 0 } = .next v ∧
      exec .wrslot v = .next w ∧ exec (.tick none) s = exec .refresh { w with seq := s.seq + 1 }

/-- R156: the TICK of the 16th SHIFT, with SEQ at QLEN, blanks the slot after the SHIFT and counts it in BLANKC; the fifth sets
BLANKC and SEQ to 0; then REFRESH. -/
def Obligations.BlankAdvanceTick : Prop :=
  ∀ s : State, s.mode = .idle → s.inbox = [] → s.tickc = 29 → s.movec = 15 → s.seq = s.qlen →
    ∃ u v, exec .shift s = .next u ∧ exec .blankslot { u with tickc := 0, movec := 0 } = .next v ∧
      exec (.tick none) s = exec .refresh { v with
        blankc := if s.blankc = 4 then 0 else s.blankc + 1
        seq := if s.blankc = 4 then 0 else s.seq }

/-- R136, R157: after every TICK in mode Idle the matrix shows row 15 of the framebuffer that tick left (the chip is the spec's own
decision D16, log entry 18). -/
def Obligations.IdleTickEndsShowingLastRow : Prop :=
  ∀ (s t : State) (msg : Option (List Byte)), s.mode = .idle → exec (.tick msg) s = .next t →
    t.sink.shown = some (t.params.rowSelect[15], visibleWord t.fb[15])

/-- R153, R161: 30 TICKs with no message from a fresh count of ticks do exactly one SHIFT, in the last of them; but for the events
nothing else changes. -/
def Obligations.ThirtyTicksShiftOnce : Prop :=
  ∀ s : State, s.mode = .idle → s.inbox = [] → s.tickc = 0 → s.movec.toNat < 15 →
    ∃ u tr k p, exec .shift s = .next u ∧
      times 30 (.tick none) s = .next { u with movec := s.movec + 1, trace := tr, sink := k, pins := p }

/-- R154 to R156, R161: 480 TICKs with no message from fresh counts make exactly one glyph advance: the next entry while there is
one, else a blank load, the fifth of which starts the message again (that reading is the spec's own decision D10, log entry 19). -/
def Obligations.GlyphAdvanceEvery480Ticks : Prop :=
  ∀ s : State, s.mode = .idle → s.inbox = [] → s.InRange → s.tickc = 0 → s.movec = 0 →
    ∃ t, times 480 (.tick none) s = .next t ∧ t.tickc = 0 ∧ t.movec = 0 ∧ t.qlen = s.qlen ∧ t.q = s.q ∧
      t.mode = .idle ∧ t.inbox = [] ∧
      (s.seq < s.qlen → t.seq = s.seq + 1 ∧ t.blankc = s.blankc) ∧
      (s.seq = s.qlen → s.blankc ≠ 4 → t.seq = s.seq ∧ t.blankc = s.blankc + 1) ∧
      (s.seq = s.qlen → s.blankc = 4 → t.seq = 0 ∧ t.blankc = 0)

/-- R161: with no further message the message repeats with a period of `QLEN + 5` advances, `480 * (QLEN + 5)` ticks: the control
state is back where it was (the blank loads: the spec's own decision D10, log entry 19). -/
def Obligations.MessageRepeats : Prop :=
  ∀ s : State, s.mode = .idle → s.inbox = [] → s.qlen.toNat ≤ 20 →
    s.tickc = 0 → s.movec = 0 → s.seq = 0 → s.blankc = 0 →
    ∃ t, times (480 * (s.qlen.toNat + 5)) (.tick none) s = .next t ∧ t.tickc = 0 ∧ t.movec = 0 ∧ t.seq = 0 ∧
      t.blankc = 0 ∧ t.mode = .idle ∧ t.qlen = s.qlen ∧ t.q = s.q

/-! ### The whole machine -/

/-- R27, R158, and the platform's data: every step keeps the control state in its ranges, the ROM's contents in canonical form and
the parameters within R6's constraints. -/
def Obligations.EveryStepKeepsInvariant : Prop := ∀ s t : State, s.Inv → step s = .next t → t.Inv

/-- R27: the state after reset meets the invariant. -/
def Obligations.PowerUpMeetsInvariant : Prop := State.reset.Inv

/-- R28, R31, R8: no step changes any byte of the font ROM, its presence, or a parameter. -/
def Obligations.NoStepWritesRomOrParameters : Prop :=
  ∀ s t : State, step s = .next t →
    (∀ a : RomAddr, t.romByte a = s.romByte a) ∧ t.rom = s.rom ∧ t.romResponds = s.romResponds ∧ t.params = s.params

/-- R24, R178: only RESET changes MODE. -/
def Obligations.OnlyResetChangesMode : Prop :=
  ∀ (i : Instr) (s t : State), exec i s = .next t → t.mode ≠ s.mode → ∃ initOk, i = .reset initOk

/-- R14, R15, R17, R19 to R23: which operations may change the framebuffer, G, the queue and the counters. Only RESOLVE writes
G: ROM.READ does not (log entry 12). -/
def Obligations.OnlyOwnersWriteBlockState : Prop :=
  ∀ (i : Instr) (s t : State), exec i s = .next t → (∀ initOk, i ≠ .reset initOk) → (∀ msg, i ≠ .tick msg) →
    (t.fb ≠ s.fb → i = .shift ∨ i = .wrslot ∨ i = .blankslot ∨ i = .clrfb) ∧
    (t.g ≠ s.g → ∃ code, i = .resolve code) ∧
    (t.q ≠ s.q ∨ t.qlen ≠ s.qlen ∨ t.seq ≠ s.seq → ∃ payload, i = .load payload) ∧
    t.tickc = s.tickc ∧ t.movec = s.movec ∧ t.blankc = s.blankc

/-- R9, R29, R205: an operation only appends events to the trace, and, RESET apart, the driver chip and the signals are what those
events make of them (R29's and R205's decisions D16 and D3, log entry 18; event by event in EventsDriveSignals). -/
def Obligations.TraceGrowsAndDevicesFollow : Prop :=
  ∀ (i : Instr) (s t : State), exec i s = .next t →
    ∃ es, t.trace = s.trace ++ es ∧
      ((∀ initOk, i ≠ .reset initOk) →
        t.sink = es.foldl Sink.apply s.sink ∧ t.pins = es.foldl Event.drive s.pins)

/-- R205: between operations both clocks and the latch line rest at 0 and the ROM is deselected; every operation but RESET
keeps that (RESET leaves the levels unspecified, R193: free values, log entry 8). The rest levels are the spec's own decision D3,
the levels as state log entry 18 (DEDUCED). -/
def Obligations.PortsReturnToRest : Prop :=
  ∀ (i : Instr) (s t : State), exec i s = .next t → (∀ initOk, i ≠ .reset initOk) → PortsAtRest s.pins → PortsAtRest t.pins

/-- R170: an operation that meets one of the four error classes completes all the same, where its payload is complete and the control
state is in its ranges. -/
def Obligations.ErrorClassesStopNothing : Prop :=
  ∀ (i : Instr) (s : State), errorsMet i s ≠ [] → s.InRange → i.payloadComplete = true → s.inbox = [] →
    ∃ t, exec i s = .next t
end

