-- ==== Sys2Proof/Laws/Encoding.lean ====
section
/-! SUPPORT. The byte-order helpers and their inverses, and the one-field decoders. -/

namespace Sys2Proof

theorem toNat_append_add {m n : Nat} (x : BitVec m) (y : BitVec n) : (x ++ y).toNat = x.toNat * 2 ^ n + y.toNat := by
  rw [BitVec.toNat_append, ← Nat.shiftLeft_add_eq_or_of_lt y.isLt, Nat.shiftLeft_eq]

theorem codeMsb_toNat (code : Code) : (codeMsb code).toNat = code.toNat / 256 := by
  have := code.isLt
  simp only [codeMsb, BitVec.extractLsb'_toNat, Nat.shiftRight_eq_div_pow]
  omega

theorem codeLsb_toNat (code : Code) : (codeLsb code).toNat = code.toNat % 256 := by
  simp [codeLsb, BitVec.extractLsb'_toNat]

theorem joinCode_toNat (m l : Byte) : (joinCode m l).toNat = m.toNat * 256 + l.toNat := toNat_append_add m l

@[simp] theorem joinCode_parts (code : Code) : joinCode (codeMsb code) (codeLsb code) = code := by
  apply BitVec.eq_of_toNat_eq
  rw [joinCode_toNat, codeMsb_toNat, codeLsb_toNat]
  omega

theorem addrByte_toNat (a : RomAddr) (k : Nat) : (a.extractLsb' k 8).toNat = a.toNat / 2 ^ k % 256 := by
  simp [BitVec.extractLsb'_toNat, Nat.shiftRight_eq_div_pow]

@[simp] theorem joinAddr_parts (a : RomAddr) :
    joinAddr (a.extractLsb' 16 8) (a.extractLsb' 8 8) (a.extractLsb' 0 8) = a := by
  apply BitVec.eq_of_toNat_eq
  have := a.isLt
  simp only [joinAddr, toNat_append_add, addrByte_toNat]
  omega

@[simp] theorem decodeFlag_encodeFlag (b : Bool) : decodeFlag (encodeFlag b) = .ok b := by
  cases b <;> rfl

@[simp] theorem decodeNibble_zeroExtend (v : BitVec 4) : decodeNibble (v.zeroExtend 8) = .ok v := by
  have h : ∀ v : BitVec 4, decodeNibble (v.zeroExtend 8) = .ok v := by decide
  exact h v

end Sys2Proof
end

