-- ==== Sys2Proof/Laws/State.lean ====
section
/-! SUPPORT. What each field of the state is after each of the named updates: one lemma a field, so that no proof unfolds
a record update. -/

namespace Sys2Proof.Machine

variable (s : State)

/-! ### emit -/

@[simp] theorem State.emit_fb (es : List Event) : (s.emit es).fb = s.fb := rfl
@[simp] theorem State.emit_g (es : List Event) : (s.emit es).g = s.g := rfl
@[simp] theorem State.emit_q (es : List Event) : (s.emit es).q = s.q := rfl
@[simp] theorem State.emit_qlen (es : List Event) : (s.emit es).qlen = s.qlen := rfl
@[simp] theorem State.emit_tickc (es : List Event) : (s.emit es).tickc = s.tickc := rfl
@[simp] theorem State.emit_movec (es : List Event) : (s.emit es).movec = s.movec := rfl
@[simp] theorem State.emit_seq (es : List Event) : (s.emit es).seq = s.seq := rfl
@[simp] theorem State.emit_blankc (es : List Event) : (s.emit es).blankc = s.blankc := rfl
@[simp] theorem State.emit_mode (es : List Event) : (s.emit es).mode = s.mode := rfl
@[simp] theorem State.emit_sink (es : List Event) : (s.emit es).sink = es.foldl Sink.apply s.sink := rfl
@[simp] theorem State.emit_pins (es : List Event) : (s.emit es).pins = es.foldl Event.drive s.pins := rfl
@[simp] theorem State.emit_trace (es : List Event) : (s.emit es).trace = s.trace ++ es := rfl
@[simp] theorem State.emit_rom (es : List Event) : (s.emit es).rom = s.rom := rfl
@[simp] theorem State.emit_romResponds (es : List Event) : (s.emit es).romResponds = s.romResponds := rfl
@[simp] theorem State.emit_draws (es : List Event) : (s.emit es).draws = s.draws := rfl
@[simp] theorem State.emit_inbox (es : List Event) : (s.emit es).inbox = s.inbox := rfl
@[simp] theorem State.emit_pending (es : List Event) : (s.emit es).pending = s.pending := rfl
@[simp] theorem State.emit_params (es : List Event) : (s.emit es).params = s.params := rfl

/-! ### exchange: the serial exchange alone -/

@[simp] theorem State.exchange_fb (a : RomAddr) : (s.exchange a).fb = s.fb := by
  simp only [State.exchange, State.emit]
@[simp] theorem State.exchange_g (a : RomAddr) : (s.exchange a).g = s.g := by
  simp only [State.exchange, State.emit]
@[simp] theorem State.exchange_q (a : RomAddr) : (s.exchange a).q = s.q := by
  simp only [State.exchange, State.emit]
@[simp] theorem State.exchange_qlen (a : RomAddr) : (s.exchange a).qlen = s.qlen := by
  simp only [State.exchange, State.emit]
@[simp] theorem State.exchange_tickc (a : RomAddr) : (s.exchange a).tickc = s.tickc := by
  simp only [State.exchange, State.emit]
@[simp] theorem State.exchange_movec (a : RomAddr) : (s.exchange a).movec = s.movec := by
  simp only [State.exchange, State.emit]
@[simp] theorem State.exchange_seq (a : RomAddr) : (s.exchange a).seq = s.seq := by
  simp only [State.exchange, State.emit]
@[simp] theorem State.exchange_blankc (a : RomAddr) : (s.exchange a).blankc = s.blankc := by
  simp only [State.exchange, State.emit]
@[simp] theorem State.exchange_mode (a : RomAddr) : (s.exchange a).mode = s.mode := by
  simp only [State.exchange, State.emit]
@[simp] theorem State.exchange_sink (a : RomAddr) : (s.exchange a).sink = (s.exchangeEvents a).foldl Sink.apply s.sink := by
  simp only [State.exchange, State.emit]
@[simp] theorem State.exchange_pins (a : RomAddr) : (s.exchange a).pins = (s.exchangeEvents a).foldl Event.drive s.pins := by
  simp only [State.exchange, State.emit]
@[simp] theorem State.exchange_trace (a : RomAddr) : (s.exchange a).trace = s.trace ++ s.exchangeEvents a := by
  simp only [State.exchange, State.emit]
@[simp] theorem State.exchange_rom (a : RomAddr) : (s.exchange a).rom = s.rom := by
  simp only [State.exchange, State.emit]
@[simp] theorem State.exchange_romResponds (a : RomAddr) : (s.exchange a).romResponds = s.romResponds := by
  simp only [State.exchange, State.emit]
@[simp] theorem State.exchange_draws (a : RomAddr) : (s.exchange a).draws = s.draws + 1 := by
  simp only [State.exchange, State.emit]
@[simp] theorem State.exchange_inbox (a : RomAddr) : (s.exchange a).inbox = s.inbox := by
  simp only [State.exchange, State.emit]
@[simp] theorem State.exchange_pending (a : RomAddr) : (s.exchange a).pending = s.pending := by
  simp only [State.exchange, State.emit]
@[simp] theorem State.exchange_params (a : RomAddr) : (s.exchange a).params = s.params := by
  simp only [State.exchange, State.emit]

/-! ### fetchGlyph: the exchange, its bytes in G -/

@[simp] theorem State.fetchGlyph_fb (a : RomAddr) : (s.fetchGlyph a).fb = s.fb := by
  simp only [State.fetchGlyph, State.exchange, State.emit]
@[simp] theorem State.fetchGlyph_g (a : RomAddr) : (s.fetchGlyph a).g = s.received a := by
  simp only [State.fetchGlyph, State.exchange, State.emit]
@[simp] theorem State.fetchGlyph_q (a : RomAddr) : (s.fetchGlyph a).q = s.q := by
  simp only [State.fetchGlyph, State.exchange, State.emit]
@[simp] theorem State.fetchGlyph_qlen (a : RomAddr) : (s.fetchGlyph a).qlen = s.qlen := by
  simp only [State.fetchGlyph, State.exchange, State.emit]
@[simp] theorem State.fetchGlyph_tickc (a : RomAddr) : (s.fetchGlyph a).tickc = s.tickc := by
  simp only [State.fetchGlyph, State.exchange, State.emit]
@[simp] theorem State.fetchGlyph_movec (a : RomAddr) : (s.fetchGlyph a).movec = s.movec := by
  simp only [State.fetchGlyph, State.exchange, State.emit]
@[simp] theorem State.fetchGlyph_seq (a : RomAddr) : (s.fetchGlyph a).seq = s.seq := by
  simp only [State.fetchGlyph, State.exchange, State.emit]
@[simp] theorem State.fetchGlyph_blankc (a : RomAddr) : (s.fetchGlyph a).blankc = s.blankc := by
  simp only [State.fetchGlyph, State.exchange, State.emit]
@[simp] theorem State.fetchGlyph_mode (a : RomAddr) : (s.fetchGlyph a).mode = s.mode := by
  simp only [State.fetchGlyph, State.exchange, State.emit]
@[simp] theorem State.fetchGlyph_sink (a : RomAddr) : (s.fetchGlyph a).sink = (s.exchangeEvents a).foldl Sink.apply s.sink := by
  simp only [State.fetchGlyph, State.exchange, State.emit]
@[simp] theorem State.fetchGlyph_pins (a : RomAddr) : (s.fetchGlyph a).pins = (s.exchangeEvents a).foldl Event.drive s.pins := by
  simp only [State.fetchGlyph, State.exchange, State.emit]
@[simp] theorem State.fetchGlyph_trace (a : RomAddr) : (s.fetchGlyph a).trace = s.trace ++ s.exchangeEvents a := by
  simp only [State.fetchGlyph, State.exchange, State.emit]
@[simp] theorem State.fetchGlyph_rom (a : RomAddr) : (s.fetchGlyph a).rom = s.rom := by
  simp only [State.fetchGlyph, State.exchange, State.emit]
@[simp] theorem State.fetchGlyph_romResponds (a : RomAddr) : (s.fetchGlyph a).romResponds = s.romResponds := by
  simp only [State.fetchGlyph, State.exchange, State.emit]
@[simp] theorem State.fetchGlyph_draws (a : RomAddr) : (s.fetchGlyph a).draws = s.draws + 1 := by
  simp only [State.fetchGlyph, State.exchange, State.emit]
@[simp] theorem State.fetchGlyph_inbox (a : RomAddr) : (s.fetchGlyph a).inbox = s.inbox := by
  simp only [State.fetchGlyph, State.exchange, State.emit]
@[simp] theorem State.fetchGlyph_pending (a : RomAddr) : (s.fetchGlyph a).pending = s.pending := by
  simp only [State.fetchGlyph, State.exchange, State.emit]
@[simp] theorem State.fetchGlyph_params (a : RomAddr) : (s.fetchGlyph a).params = s.params := by
  simp only [State.fetchGlyph, State.exchange, State.emit]

/-! ### refresh -/

@[simp] theorem State.refresh_fb : (s.refresh).fb = s.fb := by
  simp only [State.refresh, State.emit]
@[simp] theorem State.refresh_g : (s.refresh).g = s.g := by
  simp only [State.refresh, State.emit]
@[simp] theorem State.refresh_q : (s.refresh).q = s.q := by
  simp only [State.refresh, State.emit]
@[simp] theorem State.refresh_qlen : (s.refresh).qlen = s.qlen := by
  simp only [State.refresh, State.emit]
@[simp] theorem State.refresh_tickc : (s.refresh).tickc = s.tickc := by
  simp only [State.refresh, State.emit]
@[simp] theorem State.refresh_movec : (s.refresh).movec = s.movec := by
  simp only [State.refresh, State.emit]
@[simp] theorem State.refresh_seq : (s.refresh).seq = s.seq := by
  simp only [State.refresh, State.emit]
@[simp] theorem State.refresh_blankc : (s.refresh).blankc = s.blankc := by
  simp only [State.refresh, State.emit]
@[simp] theorem State.refresh_mode : (s.refresh).mode = s.mode := by
  simp only [State.refresh, State.emit]
@[simp] theorem State.refresh_sink : (s.refresh).sink = (refreshEvents s.params s.fb).foldl Sink.apply s.sink := by
  simp only [State.refresh, State.emit]
@[simp] theorem State.refresh_pins : (s.refresh).pins = (refreshEvents s.params s.fb).foldl Event.drive s.pins := by
  simp only [State.refresh, State.emit]
@[simp] theorem State.refresh_trace : (s.refresh).trace = s.trace ++ refreshEvents s.params s.fb := by
  simp only [State.refresh, State.emit]
@[simp] theorem State.refresh_rom : (s.refresh).rom = s.rom := by
  simp only [State.refresh, State.emit]
@[simp] theorem State.refresh_romResponds : (s.refresh).romResponds = s.romResponds := by
  simp only [State.refresh, State.emit]
@[simp] theorem State.refresh_draws : (s.refresh).draws = s.draws := by
  simp only [State.refresh, State.emit]
@[simp] theorem State.refresh_inbox : (s.refresh).inbox = s.inbox := by
  simp only [State.refresh, State.emit]
@[simp] theorem State.refresh_pending : (s.refresh).pending = s.pending := by
  simp only [State.refresh, State.emit]
@[simp] theorem State.refresh_params : (s.refresh).params = s.params := by
  simp only [State.refresh, State.emit]

/-! ### glyphLoad -/

@[simp] theorem State.glyphLoad_fb (c : Code) : (s.glyphLoad c).fb = writeSlot s.params (s.received (glyphAddr s.params c)) s.fb := by
  simp only [State.glyphLoad, State.fetchGlyph, State.exchange, State.emit]
@[simp] theorem State.glyphLoad_g (c : Code) : (s.glyphLoad c).g = s.received (glyphAddr s.params c) := by
  simp only [State.glyphLoad, State.fetchGlyph, State.exchange, State.emit]
@[simp] theorem State.glyphLoad_q (c : Code) : (s.glyphLoad c).q = s.q := by
  simp only [State.glyphLoad, State.fetchGlyph, State.exchange, State.emit]
@[simp] theorem State.glyphLoad_qlen (c : Code) : (s.glyphLoad c).qlen = s.qlen := by
  simp only [State.glyphLoad, State.fetchGlyph, State.exchange, State.emit]
@[simp] theorem State.glyphLoad_tickc (c : Code) : (s.glyphLoad c).tickc = s.tickc := by
  simp only [State.glyphLoad, State.fetchGlyph, State.exchange, State.emit]
@[simp] theorem State.glyphLoad_movec (c : Code) : (s.glyphLoad c).movec = s.movec := by
  simp only [State.glyphLoad, State.fetchGlyph, State.exchange, State.emit]
@[simp] theorem State.glyphLoad_seq (c : Code) : (s.glyphLoad c).seq = s.seq + 1 := by
  simp only [State.glyphLoad, State.fetchGlyph, State.exchange, State.emit]
@[simp] theorem State.glyphLoad_blankc (c : Code) : (s.glyphLoad c).blankc = s.blankc := by
  simp only [State.glyphLoad, State.fetchGlyph, State.exchange, State.emit]
@[simp] theorem State.glyphLoad_mode (c : Code) : (s.glyphLoad c).mode = s.mode := by
  simp only [State.glyphLoad, State.fetchGlyph, State.exchange, State.emit]
@[simp] theorem State.glyphLoad_sink (c : Code) : (s.glyphLoad c).sink = (s.exchangeEvents (glyphAddr s.params c)).foldl Sink.apply s.sink := by
  simp only [State.glyphLoad, State.fetchGlyph, State.exchange, State.emit]
@[simp] theorem State.glyphLoad_pins (c : Code) : (s.glyphLoad c).pins = (s.exchangeEvents (glyphAddr s.params c)).foldl Event.drive s.pins := by
  simp only [State.glyphLoad, State.fetchGlyph, State.exchange, State.emit]
@[simp] theorem State.glyphLoad_trace (c : Code) : (s.glyphLoad c).trace = s.trace ++ s.exchangeEvents (glyphAddr s.params c) := by
  simp only [State.glyphLoad, State.fetchGlyph, State.exchange, State.emit]
@[simp] theorem State.glyphLoad_rom (c : Code) : (s.glyphLoad c).rom = s.rom := by
  simp only [State.glyphLoad, State.fetchGlyph, State.exchange, State.emit]
@[simp] theorem State.glyphLoad_romResponds (c : Code) : (s.glyphLoad c).romResponds = s.romResponds := by
  simp only [State.glyphLoad, State.fetchGlyph, State.exchange, State.emit]
@[simp] theorem State.glyphLoad_draws (c : Code) : (s.glyphLoad c).draws = s.draws + 1 := by
  simp only [State.glyphLoad, State.fetchGlyph, State.exchange, State.emit]
@[simp] theorem State.glyphLoad_inbox (c : Code) : (s.glyphLoad c).inbox = s.inbox := by
  simp only [State.glyphLoad, State.fetchGlyph, State.exchange, State.emit]
@[simp] theorem State.glyphLoad_pending (c : Code) : (s.glyphLoad c).pending = s.pending := by
  simp only [State.glyphLoad, State.fetchGlyph, State.exchange, State.emit]
@[simp] theorem State.glyphLoad_params (c : Code) : (s.glyphLoad c).params = s.params := by
  simp only [State.glyphLoad, State.fetchGlyph, State.exchange, State.emit]

/-! ### offerFrame -/

@[simp] theorem State.offerFrame_fb (f : Frame) : (s.offerFrame f).fb = s.fb := rfl
@[simp] theorem State.offerFrame_g (f : Frame) : (s.offerFrame f).g = s.g := rfl
@[simp] theorem State.offerFrame_q (f : Frame) : (s.offerFrame f).q = s.q := rfl
@[simp] theorem State.offerFrame_qlen (f : Frame) : (s.offerFrame f).qlen = s.qlen := rfl
@[simp] theorem State.offerFrame_tickc (f : Frame) : (s.offerFrame f).tickc = s.tickc := rfl
@[simp] theorem State.offerFrame_movec (f : Frame) : (s.offerFrame f).movec = s.movec := rfl
@[simp] theorem State.offerFrame_seq (f : Frame) : (s.offerFrame f).seq = s.seq := rfl
@[simp] theorem State.offerFrame_blankc (f : Frame) : (s.offerFrame f).blankc = s.blankc := rfl
@[simp] theorem State.offerFrame_mode (f : Frame) : (s.offerFrame f).mode = s.mode := rfl
@[simp] theorem State.offerFrame_sink (f : Frame) : (s.offerFrame f).sink = s.sink := rfl
@[simp] theorem State.offerFrame_pins (f : Frame) : (s.offerFrame f).pins = s.pins := rfl
@[simp] theorem State.offerFrame_trace (f : Frame) : (s.offerFrame f).trace = s.trace := rfl
@[simp] theorem State.offerFrame_rom (f : Frame) : (s.offerFrame f).rom = s.rom := rfl
@[simp] theorem State.offerFrame_romResponds (f : Frame) : (s.offerFrame f).romResponds = s.romResponds := rfl
@[simp] theorem State.offerFrame_draws (f : Frame) : (s.offerFrame f).draws = s.draws := rfl
@[simp] theorem State.offerFrame_inbox (f : Frame) : (s.offerFrame f).inbox = s.inbox := rfl
@[simp] theorem State.offerFrame_pending (f : Frame) : (s.offerFrame f).pending = f :: s.pending := rfl
@[simp] theorem State.offerFrame_params (f : Frame) : (s.offerFrame f).params = s.params := rfl

/-! ### s.cadenceStep: the fields the scroll cadence never writes -/

@[simp] theorem State.cadenceStep_g : (s.cadenceStep).g = s.g := by
  unfold State.cadenceStep; split <;> rfl
@[simp] theorem State.cadenceStep_q : (s.cadenceStep).q = s.q := by
  unfold State.cadenceStep; split <;> rfl
@[simp] theorem State.cadenceStep_qlen : (s.cadenceStep).qlen = s.qlen := by
  unfold State.cadenceStep; split <;> rfl
@[simp] theorem State.cadenceStep_seq : (s.cadenceStep).seq = s.seq := by
  unfold State.cadenceStep; split <;> rfl
@[simp] theorem State.cadenceStep_blankc : (s.cadenceStep).blankc = s.blankc := by
  unfold State.cadenceStep; split <;> rfl
@[simp] theorem State.cadenceStep_mode : (s.cadenceStep).mode = s.mode := by
  unfold State.cadenceStep; split <;> rfl
@[simp] theorem State.cadenceStep_sink : (s.cadenceStep).sink = s.sink := by
  unfold State.cadenceStep; split <;> rfl
@[simp] theorem State.cadenceStep_pins : (s.cadenceStep).pins = s.pins := by
  unfold State.cadenceStep; split <;> rfl
@[simp] theorem State.cadenceStep_trace : (s.cadenceStep).trace = s.trace := by
  unfold State.cadenceStep; split <;> rfl
@[simp] theorem State.cadenceStep_rom : (s.cadenceStep).rom = s.rom := by
  unfold State.cadenceStep; split <;> rfl
@[simp] theorem State.cadenceStep_romResponds : (s.cadenceStep).romResponds = s.romResponds := by
  unfold State.cadenceStep; split <;> rfl
@[simp] theorem State.cadenceStep_draws : (s.cadenceStep).draws = s.draws := by
  unfold State.cadenceStep; split <;> rfl
@[simp] theorem State.cadenceStep_inbox : (s.cadenceStep).inbox = s.inbox := by
  unfold State.cadenceStep; split <;> rfl
@[simp] theorem State.cadenceStep_pending : (s.cadenceStep).pending = s.pending := by
  unfold State.cadenceStep; split <;> rfl
@[simp] theorem State.cadenceStep_params : (s.cadenceStep).params = s.params := by
  unfold State.cadenceStep; split <;> rfl

/-! ### s.blankLoad -/

@[simp] theorem State.blankLoad_fb : (s.blankLoad).fb = blankSlot s.fb := by
  unfold State.blankLoad; split <;> rfl
@[simp] theorem State.blankLoad_g : (s.blankLoad).g = s.g := by
  unfold State.blankLoad; split <;> rfl
@[simp] theorem State.blankLoad_q : (s.blankLoad).q = s.q := by
  unfold State.blankLoad; split <;> rfl
@[simp] theorem State.blankLoad_qlen : (s.blankLoad).qlen = s.qlen := by
  unfold State.blankLoad; split <;> rfl
@[simp] theorem State.blankLoad_tickc : (s.blankLoad).tickc = s.tickc := by
  unfold State.blankLoad; split <;> rfl
@[simp] theorem State.blankLoad_movec : (s.blankLoad).movec = s.movec := by
  unfold State.blankLoad; split <;> rfl
@[simp] theorem State.blankLoad_mode : (s.blankLoad).mode = s.mode := by
  unfold State.blankLoad; split <;> rfl
@[simp] theorem State.blankLoad_sink : (s.blankLoad).sink = s.sink := by
  unfold State.blankLoad; split <;> rfl
@[simp] theorem State.blankLoad_pins : (s.blankLoad).pins = s.pins := by
  unfold State.blankLoad; split <;> rfl
@[simp] theorem State.blankLoad_trace : (s.blankLoad).trace = s.trace := by
  unfold State.blankLoad; split <;> rfl
@[simp] theorem State.blankLoad_rom : (s.blankLoad).rom = s.rom := by
  unfold State.blankLoad; split <;> rfl
@[simp] theorem State.blankLoad_romResponds : (s.blankLoad).romResponds = s.romResponds := by
  unfold State.blankLoad; split <;> rfl
@[simp] theorem State.blankLoad_draws : (s.blankLoad).draws = s.draws := by
  unfold State.blankLoad; split <;> rfl
@[simp] theorem State.blankLoad_inbox : (s.blankLoad).inbox = s.inbox := by
  unfold State.blankLoad; split <;> rfl
@[simp] theorem State.blankLoad_pending : (s.blankLoad).pending = s.pending := by
  unfold State.blankLoad; split <;> rfl
@[simp] theorem State.blankLoad_params : (s.blankLoad).params = s.params := by
  unfold State.blankLoad; split <;> rfl

/-! ### The poll: the fields it never writes -/

@[simp] theorem State.poll_fb (given : Option (List Byte)) : (s.poll given).2.fb = s.fb := by
  unfold State.poll; split <;> rfl
@[simp] theorem State.poll_g (given : Option (List Byte)) : (s.poll given).2.g = s.g := by
  unfold State.poll; split <;> rfl
@[simp] theorem State.poll_q (given : Option (List Byte)) : (s.poll given).2.q = s.q := by
  unfold State.poll; split <;> rfl
@[simp] theorem State.poll_qlen (given : Option (List Byte)) : (s.poll given).2.qlen = s.qlen := by
  unfold State.poll; split <;> rfl
@[simp] theorem State.poll_tickc (given : Option (List Byte)) : (s.poll given).2.tickc = s.tickc := by
  unfold State.poll; split <;> rfl
@[simp] theorem State.poll_movec (given : Option (List Byte)) : (s.poll given).2.movec = s.movec := by
  unfold State.poll; split <;> rfl
@[simp] theorem State.poll_seq (given : Option (List Byte)) : (s.poll given).2.seq = s.seq := by
  unfold State.poll; split <;> rfl
@[simp] theorem State.poll_blankc (given : Option (List Byte)) : (s.poll given).2.blankc = s.blankc := by
  unfold State.poll; split <;> rfl
@[simp] theorem State.poll_mode (given : Option (List Byte)) : (s.poll given).2.mode = s.mode := by
  unfold State.poll; split <;> rfl
@[simp] theorem State.poll_sink (given : Option (List Byte)) : (s.poll given).2.sink = s.sink := by
  unfold State.poll; split <;> rfl
@[simp] theorem State.poll_pins (given : Option (List Byte)) : (s.poll given).2.pins = s.pins := by
  unfold State.poll; split <;> rfl
@[simp] theorem State.poll_trace (given : Option (List Byte)) : (s.poll given).2.trace = s.trace := by
  unfold State.poll; split <;> rfl
@[simp] theorem State.poll_rom (given : Option (List Byte)) : (s.poll given).2.rom = s.rom := by
  unfold State.poll; split <;> rfl
@[simp] theorem State.poll_romResponds (given : Option (List Byte)) : (s.poll given).2.romResponds = s.romResponds := by
  unfold State.poll; split <;> rfl
@[simp] theorem State.poll_draws (given : Option (List Byte)) : (s.poll given).2.draws = s.draws := by
  unfold State.poll; split <;> rfl
@[simp] theorem State.poll_pending (given : Option (List Byte)) : (s.poll given).2.pending = s.pending := by
  unfold State.poll; split <;> rfl
@[simp] theorem State.poll_params (given : Option (List Byte)) : (s.poll given).2.params = s.params := by
  unfold State.poll; split <;> rfl

end Sys2Proof.Machine
end

