-- ==== Sys2Proof/Laws/Scroll.lean ====
section
/-! SUPPORT. What SHIFT does to a row: as bytes, as bits, and as the 96-bit row word (R111, R112). -/

namespace Sys2Proof.Machine

/-- A row is its twelve cells. -/
theorem row_toList (row : Row) :
    row.toList = [row[0], row[1], row[2], row[3], row[4], row[5], row[6], row[7], row[8], row[9], row[10], row[11]] := by
  apply List.ext_getElem
  · simp
  · intro i h _
    have h' : i < 12 := by simpa using h
    interval_cases i <;> simp

/-- A byte's bits after the shift: the carry at the bottom, every other bit from one place below. -/
theorem shiftByte_getLsbD (b : Byte) (c : Bool) (k : Nat) (hk : k < 8) :
    (shiftByte b c).getLsbD k = if k = 0 then c else b.getLsbD (k - 1) := by
  have h : ∀ (b : Byte) (c : Bool) (k : Fin 8),
      (shiftByte b c).getLsbD k.val = if k.val = 0 then c else b.getLsbD (k.val - 1) := by decide +kernel
  exact h b c ⟨k, hk⟩

/-- The shifted byte and the bit that left it, as one number. -/
theorem shiftByte_toNat (b : Byte) (c : Bool) :
    (shiftByte b c).toNat + 256 * (carryOut b).toNat = 2 * b.toNat + c.toNat := by
  have h : ∀ (b : Byte) (c : Bool),
      (shiftByte b c).toNat + 256 * (carryOut b).toNat = 2 * b.toNat + c.toNat := by decide +kernel
  exact h b c

/-- The pass as one expression per column: each byte takes the carry out of the byte before it. -/
theorem carryPass_getElem (bs : List Byte) (c : Bool) (j : Nat) (hj : j < (carryPass c bs).length) :
    (carryPass c bs)[j] =
      shiftByte (bs[j]'(by simpa [carryPass_length] using hj))
        (if _h : j = 0 then c else carryOut (bs[j - 1]'(by rw [carryPass_length] at hj; omega))) := by
  induction bs generalizing c j with
  | nil => simp [carryPass] at hj
  | cons b bs ih =>
    cases j with
    | zero => simp [carryPass]
    | succ j =>
      have hj' : j < (carryPass (carryOut b) bs).length := by simpa [carryPass] using hj
      simp only [carryPass, List.getElem_cons_succ, ih _ _ hj']
      cases j <;> simp

/-- Column `j` of a shifted row. -/
theorem shiftRow_getElem (row : Row) (j : Nat) (hj : j < 12) :
    (shiftRow row)[j] =
      shiftByte row[j] (if _h : j = 0 then false else carryOut (row[j - 1]'(by omega))) := by
  have h := carryPass_getElem row.toList false j (by simpa [carryPass_length] using hj)
  simpa [shiftRow] using h

/-- A row's bytes as one number, first byte least significant. -/
def littleEndian : List Byte → Nat
  | [] => 0
  | b :: bs => b.toNat + 256 * littleEndian bs

theorem littleEndian_lt (bs : List Byte) : littleEndian bs < 256 ^ bs.length := by
  induction bs with
  | nil => simp [littleEndian]
  | cons b bs ih =>
    have := b.isLt
    simp only [littleEndian, List.length_cons, Nat.pow_succ]
    omega

theorem littleEndian_append (bs cs : List Byte) :
    littleEndian (bs ++ cs) = littleEndian bs + 256 ^ bs.length * littleEndian cs := by
  induction bs with
  | nil => simp [littleEndian]
  | cons b bs ih =>
    simp only [List.cons_append, littleEndian, ih, List.length_cons, Nat.pow_succ]
    ring

/-- The number determines the bytes. -/
theorem littleEndian_inj (bs cs : List Byte) (hl : bs.length = cs.length) (h : littleEndian bs = littleEndian cs) :
    bs = cs := by
  induction bs generalizing cs with
  | nil => exact (List.length_eq_zero_iff.1 hl.symm).symm
  | cons b bs ih =>
    cases cs with
    | nil => cases hl
    | cons c cs =>
      simp only [littleEndian] at h
      have := b.isLt
      have := c.isLt
      rw [ih cs (by simpa using hl) (by omega), BitVec.eq_of_toNat_eq (show b.toNat = c.toNat by omega)]

/-- The pass doubles the number, adds the carry in, and loses what does not fit. -/
theorem littleEndian_carryPass (bs : List Byte) (c : Bool) :
    littleEndian (carryPass c bs) = (2 * littleEndian bs + c.toNat) % 256 ^ bs.length := by
  suffices h : ∃ d, littleEndian (carryPass c bs) + 256 ^ bs.length * d = 2 * littleEndian bs + c.toNat by
    obtain ⟨d, h⟩ := h
    have hlt := littleEndian_lt (carryPass c bs)
    rw [carryPass_length] at hlt
    rw [← h, Nat.add_mul_mod_self_left, Nat.mod_eq_of_lt hlt]
  induction bs generalizing c with
  | nil => exact ⟨c.toNat, by simp [carryPass, littleEndian]⟩
  | cons b bs ih =>
    obtain ⟨d, hd⟩ := ih (carryOut b)
    refine ⟨d, ?_⟩
    have hb := shiftByte_toNat b c
    simp only [carryPass, littleEndian, List.length_cons, Nat.pow_succ]
    have : 256 ^ bs.length * 256 * d = 256 * (256 ^ bs.length * d) := by ring
    omega

/-- The row word of R12 is the number its bytes make. -/
theorem rowWord_toNat (row : Row) : (rowWord row).toNat = littleEndian row.toList := by
  rw [row_toList]
  simp only [rowWord, toNat_append_add, littleEndian]
  omega

/-- SHIFT on the row word (R111). -/
theorem rowWord_shiftRow (row : Row) : (rowWord (shiftRow row)).toNat = (rowWord row).toNat * 2 % 2 ^ 96 := by
  have h : (shiftRow row).toList = carryPass false row.toList := rfl
  rw [rowWord_toNat, rowWord_toNat, h, littleEndian_carryPass]
  simp [Nat.mul_comm]

theorem mem_eq_zero_of_littleEndian (bs : List Byte) (h : littleEndian bs = 0) : ∀ b ∈ bs, b = 0 := by
  induction bs with
  | nil => simp
  | cons b bs ih =>
    simp only [littleEndian] at h
    have hb : b = 0 := BitVec.eq_of_toNat_eq (by simp; omega)
    simpa [hb] using ih (by omega)

/-- A row whose word is 0 is all zero. -/
theorem row_zero_of_rowWord (row : Row) (h : (rowWord row).toNat = 0) (c : Nat) (hc : c < 12) : row[c] = 0 :=
  mem_eq_zero_of_littleEndian row.toList (rowWord_toNat row ▸ h) _ (by simp)

end Sys2Proof.Machine
end

