-- ==== Sys2Proof/Laws/Refresh.lean ====
section
/-! SUPPORT. What the events of a refresh are, one by one, and what they make of the driver chip (R131, R136). -/

namespace Sys2Proof.Machine

theorem msbFirst_length (n : Nat) (x : BitVec n) : (msbFirst n x).length = n := by simp [msbFirst]

theorem rowBytes_eq (row : Row) :
    rowBytes row = [row[2], row[3], row[4], row[5], row[6], row[7], row[8], row[9], row[10], row[11]] := by
  rw [rowBytes, row_toList]; rfl

/-! ### Lists of equal blocks -/

theorem flatMap_length_const {α β : Type} (f : α → List β) (n : Nat) (l : List α) (h : ∀ x ∈ l, (f x).length = n) :
    (l.flatMap f).length = n * l.length := by
  induction l with
  | nil => simp
  | cons x xs ih =>
    simp only [List.flatMap_cons, List.length_append, List.length_cons, h x (by simp),
      ih fun y hy => h y (by simp [hy])]
    ring

/-- Element `k` of block `m`. -/
theorem flatMap_getElem?_block {α β : Type} (f : α → List β) (n : Nat) (l : List α) (h : ∀ x ∈ l, (f x).length = n)
    (m k : Nat) (hk : k < n) : (l.flatMap f)[n * m + k]? = l[m]?.bind fun x => (f x)[k]? := by
  induction l generalizing m with
  | nil => simp
  | cons x xs ih =>
    have hx := h x (by simp)
    cases m with
    | zero => simp [List.flatMap_cons, List.getElem?_append, hx, hk]
    | succ m =>
      rw [List.flatMap_cons, List.getElem?_append_right (by rw [hx, Nat.mul_succ]; omega), hx,
        show n * (m + 1) + k - n = n * m + k by rw [Nat.mul_succ]; omega, ih (fun y hy => h y (by simp [hy]))]
      simp

/-- The first `m` blocks and the start of the next one. -/
theorem flatMap_take_block {α β : Type} (f : α → List β) (n : Nat) (l : List α) (h : ∀ x ∈ l, (f x).length = n)
    (m k : Nat) (hk : k ≤ n) :
    (l.flatMap f).take (n * m + k) = (l.take m).flatMap f ++ ((l[m]?.map f).getD []).take k := by
  induction l generalizing m with
  | nil => simp
  | cons x xs ih =>
    have hx := h x (by simp)
    cases m with
    | zero => simp [List.flatMap_cons, List.take_append_of_le_length, hx, hk]
    | succ m =>
      rw [List.flatMap_cons, List.take_append, List.take_of_length_le (by rw [hx, Nat.mul_succ]; omega), hx,
        show n * (m + 1) + k - n = n * m + k by rw [Nat.mul_succ]; omega, ih (fun y hy => h y (by simp [hy]))]
      simp

/-! ### One row -/

/-- The 80 data events of a row. -/
def rowData (row : Row) : List Event := (rowBytes row).flatMap fun b => (msbFirst 8 b).map .ledTx

theorem rowEvents_eq (code : BitVec 4) (row : Row) :
    rowEvents code row = rowData row ++ [.ledOe false, .ledLatch, .ledRow code, .ledOe true] := rfl

theorem rowData_length (row : Row) : (rowData row).length = 80 := by
  rw [rowData, flatMap_length_const _ 8 _ (by simp [msbFirst_length]), rowBytes_eq]; rfl

theorem rowEvents_length (code : BitVec 4) (row : Row) : (rowEvents code row).length = 84 := by
  simp [rowEvents_eq, rowData_length]

/-- Data bit `k` of a row: bit `7 - k mod 8` of column `2 + k div 8` (R44). -/
theorem rowData_getElem? (row : Row) (k : Nat) (hk : k < 80) :
    (rowData row)[k]? = some (.ledTx ((row[2 + k / 8]'(by omega)).getLsbD (7 - k % 8))) := by
  have h := flatMap_getElem?_block (fun b : Byte => (msbFirst 8 b).map Event.ledTx) 8 (rowBytes row)
    (by simp [msbFirst_length]) (k / 8) (k % 8) (Nat.mod_lt _ (by omega))
  rw [Nat.div_add_mod] at h
  rw [rowData, h, rowBytes, List.getElem?_drop, List.getElem?_eq_getElem (by simp; omega)]
  have hk8 : k % 8 < 8 := Nat.mod_lt _ (by omega)
  simp [msbFirst, hk8]

theorem rowEvents_data (code : BitVec 4) (row : Row) (k : Nat) (hk : k < 80) :
    (rowEvents code row)[k]? = (rowData row)[k]? := by
  rw [rowEvents_eq, List.getElem?_append_left (by rw [rowData_length]; exact hk)]

theorem rowEvents_control (code : BitVec 4) (row : Row) (k : Nat) :
    (rowEvents code row)[80 + k]? = ([.ledOe false, .ledLatch, .ledRow code, .ledOe true] : List Event)[k]? := by
  rw [rowEvents_eq, List.getElem?_append_right (by rw [rowData_length]; omega), rowData_length, Nat.add_sub_cancel_left]

/-! ### The driver chip during one row -/

/-- Data bits move the shift stage only. -/
theorem foldl_ledTx (bits : List Bool) (k : Sink) :
    (bits.map Event.ledTx).foldl Sink.apply k =
      { k with sr := ((bits.map Event.ledTx).foldl Sink.apply k).sr } := by
  induction bits generalizing k with
  | nil => rfl
  | cons b bs ih => simp only [List.map_cons, List.foldl_cons]; rw [ih]; rfl

theorem rowData_eq_map (row : Row) : rowData row = ((rowBytes row).flatMap (msbFirst 8)).map .ledTx := by
  simp [rowData, List.map_flatMap]

/-- A prefix of a row's data leaves everything but the shift stage alone. -/
theorem foldl_rowData_take (row : Row) (n : Nat) (k : Sink) :
    ((rowData row).take n).foldl Sink.apply k =
      { k with sr := (((rowData row).take n).foldl Sink.apply k).sr } := by
  rw [rowData_eq_map, ← List.map_take]; exact foldl_ledTx _ k

/-- Eight data bits put a byte into the bottom of the shift stage. -/
theorem foldl_byte_sr (b : Byte) (k : Sink) :
    ((((msbFirst 8 b).map Event.ledTx).foldl Sink.apply k).sr).toNat = (k.sr.toNat * 256 + b.toNat) % 2 ^ 80 := by
  have hb : ∀ b : Byte, b.toNat = (b.getLsbD 7).toNat * 128 + (b.getLsbD 6).toNat * 64 + (b.getLsbD 5).toNat * 32 +
      (b.getLsbD 4).toNat * 16 + (b.getLsbD 3).toNat * 8 + (b.getLsbD 2).toNat * 4 + (b.getLsbD 1).toNat * 2 +
      (b.getLsbD 0).toNat := by decide +kernel
  have step : ∀ (x : BitVec 80) (c : Bool), ((x <<< 1) + (BitVec.ofBool c).zeroExtend 80).toNat =
      (x.toNat * 2 + c.toNat) % 2 ^ 80 := by
    intro x c
    have := x.isLt
    cases c <;> simp [BitVec.toNat_add, Nat.shiftLeft_eq]
  have hl : msbFirst 8 b = [b.getLsbD 7, b.getLsbD 6, b.getLsbD 5, b.getLsbD 4, b.getLsbD 3, b.getLsbD 2,
    b.getLsbD 1, b.getLsbD 0] := rfl
  rw [hl, hb b]
  simp only [List.map_cons, List.map_nil, List.foldl_cons, List.foldl_nil, Sink.apply, step]
  omega

/-- After a row's data the shift stage holds the row's visible word (R136). -/
theorem foldl_rowData_sr (row : Row) (k : Sink) : ((rowData row).foldl Sink.apply k).sr = visibleWord row := by
  apply BitVec.eq_of_toNat_eq
  rw [rowData, rowBytes_eq]
  simp only [List.flatMap_cons, List.flatMap_nil, List.append_nil, List.foldl_append, foldl_byte_sr, visibleWord,
    toNat_append_add]
  omega

/-- After a row's events the driver chip holds and shows that row (R136). -/
theorem foldl_rowEvents (code : BitVec 4) (row : Row) (k : Sink) :
    (rowEvents code row).foldl Sink.apply k = ⟨visibleWord row, visibleWord row, true, code⟩ := by
  rw [rowEvents_eq, List.foldl_append]
  have h := foldl_rowData_sr row k
  simp [Sink.apply, h]

/-! ### A whole refresh -/

theorem refreshEvents_length (p : Params) (fb : Grid) : (refreshEvents p fb).length = 1344 := by
  rw [refreshEvents, flatMap_length_const _ 84 _ (by simp [rowEvents_length])]; simp

/-- Event `k` of row `r`. -/
theorem refreshEvents_getElem? (p : Params) (fb : Grid) (r : Fin 16) (k : Nat) (hk : k < 84) :
    (refreshEvents p fb)[84 * r.val + k]? = (rowEvents p.rowSelect[r] fb[r])[k]? := by
  rw [refreshEvents, flatMap_getElem?_block _ 84 _ (by simp [rowEvents_length]) _ _ hk]
  simp

/-- The start of a refresh: whole rows, then part of the next one. -/
theorem refreshEvents_take (p : Params) (fb : Grid) (m k : Nat) (hk : k ≤ 84) :
    (refreshEvents p fb).take (84 * m + k) =
      ((List.finRange 16).take m).flatMap (fun r => rowEvents p.rowSelect[r] fb[r]) ++
        (((List.finRange 16)[m]?.map fun r => rowEvents p.rowSelect[r] fb[r]).getD []).take k :=
  flatMap_take_block _ 84 _ (by simp [rowEvents_length]) m k hk

/-- After the events of rows 0 to `r` the driver chip holds and shows row `r`. -/
theorem foldl_rows_take (p : Params) (fb : Grid) (r : Fin 16) (k : Sink) :
    (((List.finRange 16).take (r.val + 1)).flatMap fun r => rowEvents p.rowSelect[r] fb[r]).foldl Sink.apply k =
      ⟨visibleWord fb[r], visibleWord fb[r], true, p.rowSelect[r]⟩ := by
  rw [List.take_succ_eq_append_getElem (by simp), List.flatMap_append, List.foldl_append]
  simp [foldl_rowEvents]

/-- After a refresh the driver chip holds and shows row 15. -/
theorem foldl_refreshEvents (p : Params) (fb : Grid) (k : Sink) :
    (refreshEvents p fb).foldl Sink.apply k = ⟨visibleWord fb[15], visibleWord fb[15], true, p.rowSelect[15]⟩ :=
  foldl_rows_take p fb 15 k

/-! ### The signals -/

/-- The last bit a row sends is bit 0 of column 11 (R44). -/
theorem rowData_last (row : Row) : ∃ bits : List Bool, rowData row = (bits ++ [(row[11]).getLsbD 0]).map .ledTx := by
  refine ⟨[row[2], row[3], row[4], row[5], row[6], row[7], row[8], row[9], row[10]].flatMap (msbFirst 8) ++
    (List.range 7).map fun t => (row[11]).getLsbD (7 - t), ?_⟩
  rw [rowData_eq_map, rowBytes_eq, List.append_assoc]
  simp only [List.flatMap_cons, List.flatMap_nil, List.append_nil, List.append_assoc]
  simp [msbFirst, List.range_succ]

/-- The LED signals a row's events leave (R131, R182, R205). -/
theorem foldl_rowEvents_drive (code : BitVec 4) (row : Row) (p : Levels) :
    RowSignals ((rowEvents code row).foldl Event.drive p) code row := by
  obtain ⟨bits, h⟩ := rowData_last row
  rw [rowEvents_eq, h, List.map_append, List.foldl_append, List.foldl_append]
  generalize (bits.map Event.ledTx).foldl Event.drive p = q
  exact ⟨rfl, rfl, rfl, rfl, rfl, rfl, rfl, rfl⟩

/-- The LED signals a refresh leaves: those of row 15. -/
theorem foldl_refreshEvents_drive (p : Params) (fb : Grid) (q : Levels) :
    RowSignals ((refreshEvents p fb).foldl Event.drive q) p.rowSelect[15] fb[15] := by
  have h : refreshEvents p fb = ((List.finRange 16).take 15).flatMap (fun r => rowEvents p.rowSelect[r] fb[r]) ++
      rowEvents p.rowSelect[15] fb[15] := by
    rw [refreshEvents, show (List.finRange 16) = (List.finRange 16).take 15 ++ [15] from rfl, List.flatMap_append,
      List.flatMap_singleton]
    rfl
  rw [h, List.foldl_append]
  exact foldl_rowEvents_drive _ _ _

/-! ### The control order -/

theorem quietSelect_rowEvents (code : BitVec 4) (row : Row) (enabled : Bool) (es : List Event) :
    quietSelect enabled (rowEvents code row ++ es) = quietSelect true es := by
  have h : ∀ (bits : List Bool) (enabled : Bool) (es : List Event),
      quietSelect enabled (bits.map Event.ledTx ++ es) = quietSelect enabled es := by
    intro bits
    induction bits with
    | nil => intros; rfl
    | cons b bs ih => intro enabled es; simpa [quietSelect] using ih enabled es
  rw [rowEvents_eq, rowData_eq_map, List.append_assoc, h]
  simp [quietSelect]

theorem quietSelect_refreshEvents (p : Params) (fb : Grid) (enabled : Bool) :
    quietSelect enabled (refreshEvents p fb) = true := by
  have h : ∀ (l : List (Fin 16)) (enabled : Bool),
      quietSelect enabled (l.flatMap fun r => rowEvents p.rowSelect[r] fb[r]) = true := by
    intro l
    induction l with
    | nil => intro _; rfl
    | cons r rs ih => intro enabled; rw [List.flatMap_cons, quietSelect_rowEvents]; exact ih true
  exact h _ enabled

/-! ### Settle delays -/

theorem settleDelays_append (es es' : List Event) : settleDelays (es ++ es') = settleDelays es + settleDelays es' := by
  simp [settleDelays]

/-- A data cell of either port spends two settle delays (R205). -/
theorem settleDelays_map (f : Bool → Event) (h : ∀ b, (f b).cell.count .delay = 2) (bits : List Bool) :
    settleDelays (bits.map f) = 2 * bits.length := by
  induction bits with
  | nil => rfl
  | cons b bs ih =>
    have : settleDelays (f b :: bs.map f) = (f b).cell.count .delay + settleDelays (bs.map f) := by
      simp [settleDelays]
    rw [List.map_cons, this, h, ih, List.length_cons]; omega

end Sys2Proof.Machine
end

