-- ==== Sys2Proof/Laws/Exchange.lean ====
section
/-! SUPPORT. What the serial exchange with the font ROM sends, samples and returns (R42, R43, R84). -/

namespace Sys2Proof.Machine

/-- The read command is the opcode byte, then the address bytes from the top (R42, R63). -/
theorem msbFirst_readFrame (a : RomAddr) :
    msbFirst 32 (readFrame a) = msbFirst 8 0x03 ++ msbFirst 8 (a.extractLsb' 16 8) ++
      msbFirst 8 (a.extractLsb' 8 8) ++ msbFirst 8 (a.extractLsb' 0 8) := by
  have h : readFrame a = (0x03 : Byte) ++ a := by
    apply BitVec.eq_of_toNat_eq
    have := a.isLt
    rw [toNat_append_add]
    simp [readFrame, BitVec.toNat_add]
    omega
  have split : ∀ {m n : Nat} (x : BitVec m) (y : BitVec n) (t : Nat),
      (x ++ y).getLsbD t = if t < n then y.getLsbD t else x.getLsbD (t - n) := by
    intro m n x y t; rw [BitVec.getLsbD_append]
  rw [h]
  simp only [msbFirst, List.range_succ, List.range_zero, List.nil_append, List.map_cons, List.map_nil, List.cons_append, split, BitVec.getLsbD_extractLsb']
  simp

/-- The same command as a number: `0x03000000 + A` (R63). -/
theorem readFrame_eq_ofNat (a : RomAddr) : readFrame a = BitVec.ofNat 32 (0x03000000 + a.toNat) := by
  apply BitVec.eq_of_toNat_eq
  have := a.isLt
  simp [readFrame, BitVec.toNat_add]

/-- Packing eight bits puts the first one on top (R43). -/
theorem packByte_getLsbD (f : Nat → Bool) (k : Nat) (hk : k < 8) :
    (packByte ((List.range 8).map f)).getLsbD (7 - k) = f k := by
  have h : ∀ (b0 b1 b2 b3 b4 b5 b6 b7 : Bool) (k : Fin 8),
      (packByte [b0, b1, b2, b3, b4, b5, b6, b7]).getLsbD (7 - k.val) =
        [b0, b1, b2, b3, b4, b5, b6, b7].getD k.val false := by decide +kernel
  have := h (f 0) (f 1) (f 2) (f 3) (f 4) (f 5) (f 6) (f 7) ⟨k, hk⟩
  simp only [List.range_succ, List.range_zero, List.nil_append, List.map_cons, List.map_nil, List.cons_append]
  rw [this]
  interval_cases k <;> rfl

/-- Packing a byte's own bits, first one on top, gives the byte back. -/
theorem packByte_bits (b : Byte) : packByte ((List.range 8).map fun k => b.getLsbD (7 - k)) = b := by
  have h : ∀ b : Byte, packByte ((List.range 8).map fun k => b.getLsbD (7 - k)) = b := by decide +kernel
  exact h b

variable (s : State) (a : RomAddr)

theorem samples_length : (s.samples a).length = 256 := by simp [State.samples]

theorem samples_getElem? (t : Nat) (ht : t < 256) : (s.samples a)[t]? = some (s.sampled a t) := by
  simp [State.samples, ht]

/-- The events of an exchange (R84). -/
theorem exchangeEvents_length : (s.exchangeEvents a).length = 290 := by
  simp [State.exchangeEvents, msbFirst_length, samples_length]

/-- Bit `7 - k` of returned byte `i` is sample `8*i + k` (R43). -/
theorem received_getLsbD (i : Fin 32) (k : Nat) (hk : k < 8) :
    ((s.received a)[i]).getLsbD (7 - k) = s.sampled a (8 * i.val + k) := by
  simp only [State.received, Fin.getElem_fin, Vector.getElem_ofFn]
  exact packByte_getLsbD _ k hk

/-- Sample `8*i + k` is bit `7 - k` of the byte the ROM answers with at the address plus `i` (R43, R46). -/
theorem sampled_answered (i k : Nat) (hk : k < 8) (b : Byte) (h : s.romByte (a + BitVec.ofNat 24 i) = some b) :
    s.sampled a (8 * i + k) = b.getLsbD (7 - k) := by
  simp only [State.sampled, show (8 * i + k) / 8 = i by omega, show (8 * i + k) % 8 = k by omega, h]

/-- What the ROM answers depends on its contents and presence alone (R48). -/
theorem romByte_congr (t : State) (h : s.rom = t.rom) (hr : s.romResponds = t.romResponds) : t.romByte a = s.romByte a := by
  rw [State.romByte, State.romByte, State.romContents, State.romContents, h, hr]

/-- A ROM that is there answers at every address (R46). -/
theorem romByte_responds (h : s.romResponds = true) : s.romByte a = some (s.romContents a) := by simp [State.romByte, h]

/-- From an answering ROM the samples do not depend on the draw: they are the ROM's and the address's alone (R48). -/
theorem sampled_responds (h : s.romResponds = true) (t : Nat) :
    s.sampled a t = (s.romContents (a + BitVec.ofNat 24 (t / 8))).getLsbD (7 - t % 8) := by
  simp only [State.sampled, romByte_responds _ _ h]

/-- Where the ROM answers, its byte is the byte returned (R46, R85). -/
theorem received_answered (i : Fin 32) (b : Byte) (h : s.romByte (a + BitVec.ofNat 24 i.val) = some b) :
    (s.received a)[i] = b := by
  simp only [State.received, Fin.getElem_fin, Vector.getElem_ofFn]
  rw [← packByte_bits b]
  congr 1
  apply List.map_congr_left
  intro k hk
  exact sampled_answered s a i.val k (List.mem_range.1 hk) b h

theorem ofNat_add_index (i : Nat) : BitVec.ofNat 24 (a.toNat + i) = a + BitVec.ofNat 24 i := by
  apply BitVec.eq_of_toNat_eq
  simp [BitVec.toNat_add]

/-- An exchange does not reach the LED driver chip. -/
theorem foldl_exchangeEvents_sink (k : Sink) : (s.exchangeEvents a).foldl Sink.apply k = k := by
  have h : ∀ es : List Event, (∀ e ∈ es, ∀ k : Sink, k.apply e = k) → es.foldl Sink.apply k = k := by
    intro es
    induction es with
    | nil => intro _; rfl
    | cons e es ih => intro he; rw [List.foldl_cons, he e (by simp)]; exact ih fun e' h' => he e' (by simp [h'])
  refine h _ fun e he k => ?_
  simp only [State.exchangeEvents, List.cons_append, List.mem_cons, List.mem_append, List.mem_map,
    List.not_mem_nil, or_false] at he
  rcases he with rfl | (⟨_, _, rfl⟩ | ⟨_, _, rfl⟩) | rfl <;> rfl

/-- What an exchange alone changes, and nothing else: the trace, the signals, the draws (R84). -/
theorem exchange_eq : s.exchange a = { s with
    trace := s.trace ++ s.exchangeEvents a
    pins := (s.exchangeEvents a).foldl Event.drive s.pins
    draws := s.draws + 1 } := by
  simp only [State.exchange, State.emit, foldl_exchangeEvents_sink]

/-- What the exchange of a RESOLVE changes, and nothing else: G too (R80, R85). -/
theorem fetchGlyph_eq : s.fetchGlyph a = { s with
    g := s.received a
    trace := s.trace ++ s.exchangeEvents a
    pins := (s.exchangeEvents a).foldl Event.drive s.pins
    draws := s.draws + 1 } := by
  simp only [State.fetchGlyph, State.exchange, State.emit, foldl_exchangeEvents_sink]

/-- The last sample of an exchange stands alone at the end. -/
theorem samples_last : s.samples a = (List.range 255).map (s.sampled a) ++ [s.sampled a 255] := by
  rw [State.samples, List.range_succ, List.map_append]; rfl

/-- The font ROM signals an exchange leaves (R84, R205): deselected, clock at 0, the last address bit, the last sample. -/
theorem foldl_exchangeEvents_drive (p : Levels) : let q := (s.exchangeEvents a).foldl Event.drive p
    q.romCs = false ∧ q.romClk = false ∧ q.romDo = a.getLsbD 0 ∧ q.romDi = s.sampled a 255 := by
  have hd : ∀ (bits : List Bool) (p : Levels), ((bits.map Event.romRx).foldl Event.drive p).romDo = p.romDo := by
    intro bits
    induction bits with
    | nil => intro _; rfl
    | cons b bs ih => intro p; rw [List.map_cons, List.foldl_cons, ih]; rfl
  have hs := samples_last s a
  have hf : msbFirst 32 (readFrame a) = (List.range 31).map (fun t => (readFrame a).getLsbD (31 - t)) ++ [a.getLsbD 0] := by
    rw [msbFirst, List.range_succ, List.map_append]
    congr 1
    simp [readFrame, BitVec.getLsbD, BitVec.toNat_add]
    omega
  have ho : ∀ p : Levels, ((((s.samples a).map Event.romRx).foldl Event.drive p).romClk = false) ∧
      (((s.samples a).map Event.romRx).foldl Event.drive p).romDi = s.sampled a 255 := by
    intro p
    rw [hs, List.map_append, List.foldl_append]; exact ⟨rfl, rfl⟩
  have hx : ∀ p : Levels, (((msbFirst 32 (readFrame a)).map Event.romTx).foldl Event.drive p).romDo = a.getLsbD 0 := by
    intro p
    rw [hf, List.map_append, List.foldl_append]; rfl
  have h := hd (s.samples a) (((msbFirst 32 (readFrame a)).map Event.romTx).foldl Event.drive (Event.drive p (.romSel true)))
  rw [hx] at h
  obtain ⟨h1, h2⟩ := ho (((msbFirst 32 (readFrame a)).map Event.romTx).foldl Event.drive (Event.drive p (.romSel true)))
  simp only [State.exchangeEvents, List.cons_append, List.foldl_cons, List.foldl_append, List.foldl_nil]
  generalize (((s.samples a).map Event.romRx).foldl Event.drive _) = r at h h1 h2
  exact ⟨rfl, h1, h, h2⟩
/-- The last two events of an exchange: the last sample, then the deselection. -/
theorem exchangeEvents_last : ∃ pre, s.exchangeEvents a = pre ++ [.romRx (s.sampled a 255), .romSel false] := by
  have hs := samples_last s a
  exact ⟨.romSel true :: (msbFirst 32 (readFrame a)).map .romTx ++ ((List.range 255).map (s.sampled a)).map .romRx, by
    rw [State.exchangeEvents, hs, List.map_append]; simp only [List.append_assoc]; rfl⟩

/-- An exchange gives no latch pulse and selects no row. -/
theorem quietSelect_exchangeEvents (enabled : Bool) (es : List Event) :
    quietSelect enabled (s.exchangeEvents a ++ es) = quietSelect enabled es := by
  have tx : ∀ (bits : List Bool) (es : List Event),
      quietSelect enabled (bits.map Event.romTx ++ es) = quietSelect enabled es := by
    intro bits es
    induction bits with
    | nil => rfl
    | cons b bs ih => simpa [quietSelect] using ih
  have rx : ∀ (bits : List Bool) (es : List Event),
      quietSelect enabled (bits.map Event.romRx ++ es) = quietSelect enabled es := by
    intro bits es
    induction bits with
    | nil => rfl
    | cons b bs ih => simpa [quietSelect] using ih
  simp only [State.exchangeEvents, List.cons_append, List.append_assoc, List.nil_append, quietSelect, tx, rx]

/-- An exchange spends 576 settle delays (R210). -/
theorem settleDelays_exchangeEvents : settleDelays (s.exchangeEvents a) = 576 := by
  have hs : ∀ v es, settleDelays (Event.romSel v :: es) = settleDelays es := by
    intro v es; simp [settleDelays, Event.cell]
  simp only [State.exchangeEvents, List.cons_append, hs, settleDelays_append,
    settleDelays_map Event.romTx (fun _ => rfl), settleDelays_map Event.romRx (fun _ => rfl), msbFirst_length,
    samples_length]
  simp [settleDelays]

end Sys2Proof.Machine
end

