-- ==== Sys2Proof/Laws/Task.lean ====
section
/-! SUPPORT. What each step of TICK can do, said once (R151 to R157). -/

namespace Sys2Proof.Machine

variable (s : State)

/-! ### The poll and the message (R152) -/

@[simp] theorem poll_given (payload : List Byte) : s.poll (some payload) = (some payload, s) := by
  cases s.inbox <;> simp [State.poll]

theorem poll_waiting (payload : List Byte) (rest : List (List Byte)) (h : s.inbox = payload :: rest) :
    s.poll none = (some payload, { s with inbox := rest }) := by simp [State.poll, h]

theorem poll_empty (h : s.inbox = []) : s.poll none = (none, s) := by simp [State.poll, h]

@[simp] theorem messageStep_none : s.messageStep none = some s := rfl

theorem payloadCount_le (payload : List Byte) : payloadCount payload ≤ 20 := Nat.min_le_right _ _

theorem loadQueue_readable (payload : List Byte) (h : payloadReadable payload = true) :
    s.loadQueue payload = some { s with
      q := loadSlots payload s.q, qlen := BitVec.ofNat 8 (payloadCount payload), seq := 0 } := by
  simp [State.loadQueue, h]

theorem loadQueue_short (payload : List Byte) (h : payloadReadable payload = false) : s.loadQueue payload = none := by
  simp [State.loadQueue, h]

theorem messageStep_readable (payload : List Byte) (h : payloadReadable payload = true) :
    s.messageStep (some payload) = some { s with
      fb := blankGrid, q := loadSlots payload s.q, qlen := BitVec.ofNat 8 (payloadCount payload)
      tickc := 0, movec := 0, seq := 0, blankc := 0 } := by
  simp [State.messageStep, loadQueue_readable _ payload h]

theorem messageStep_short (payload : List Byte) (h : payloadReadable payload = false) :
    s.messageStep (some payload) = none := by
  simp [State.messageStep, loadQueue_short _ payload h]

/-- The message step that answers: no message and nothing done, or a complete one loaded. -/
theorem messageStep_cases (m : Option (List Byte)) (t : State) (h : s.messageStep m = some t) :
    (m = none ∧ t = s) ∨ ∃ payload, m = some payload ∧ payloadReadable payload = true ∧ t = { s with
      fb := blankGrid, q := loadSlots payload s.q, qlen := BitVec.ofNat 8 (payloadCount payload)
      tickc := 0, movec := 0, seq := 0, blankc := 0 } := by
  cases m with
  | none => exact .inl ⟨rfl, (Option.some.inj h).symm⟩
  | some payload =>
    cases hr : payloadReadable payload with
    | false => rw [messageStep_short _ _ hr] at h; cases h
    | true => rw [messageStep_readable _ _ hr] at h; exact .inr ⟨payload, rfl, hr, (Option.some.inj h).symm⟩

/-- What the message step leaves alone. -/
theorem messageStep_keeps (m : Option (List Byte)) (t : State) (h : s.messageStep m = some t) :
    t.g = s.g ∧ t.mode = s.mode ∧ t.sink = s.sink ∧ t.pins = s.pins ∧ t.trace = s.trace ∧ t.rom = s.rom ∧
      t.romResponds = s.romResponds ∧ t.inbox = s.inbox ∧ t.pending = s.pending ∧ t.params = s.params := by
  rcases messageStep_cases s m t h with ⟨_, rfl⟩ | ⟨_, _, _, rfl⟩ <;>
    exact ⟨rfl, rfl, rfl, rfl, rfl, rfl, rfl, rfl, rfl, rfl⟩

/-! ### The scroll cadence (R153) -/

theorem tickc_add_one (b : BitVec 8) : b + 1 = ticksPerShift ↔ b = 29 := by
  revert b; decide

theorem blankc_add_one (b : BitVec 8) : b + 1 = blanksPerMessage ↔ b = 4 := by
  revert b; decide

theorem cadenceStep_shift (h : s.tickc = 29) :
    s.cadenceStep = { s with tickc := 0, fb := shiftGrid s.fb, movec := s.movec + 1 } := by
  rw [State.cadenceStep, if_pos ((tickc_add_one s.tickc).2 h)]

theorem cadenceStep_count (h : s.tickc ≠ 29) : s.cadenceStep = { s with tickc := s.tickc + 1 } := by
  rw [State.cadenceStep, if_neg ((tickc_add_one s.tickc).not.2 h)]

/-! ### The glyph advance (R154 to R156) -/

theorem advanceStep_skip (h : s.movec ≠ 16) : s.advanceStep = some s := by
  rw [State.advanceStep, if_neg (show ¬ s.movec = shiftsPerAdvance from h)]

theorem advanceStep_glyph (code : Code) (h : s.movec = 16) (hlt : s.seq < s.qlen)
    (hc : s.q[s.seq.toNat]? = some code) :
    s.advanceStep = some (State.glyphLoad { s with movec := 0 } code) := by
  simp [State.advanceStep, shiftsPerAdvance, h, hlt, State.nextCode, hc]

theorem advanceStep_blank (h : s.movec = 16) (hge : ¬ s.seq < s.qlen) :
    s.advanceStep = some (State.blankLoad { s with movec := 0 }) := by
  simp [State.advanceStep, shiftsPerAdvance, h, hge]

/-- Every advance that answers is one of the three. -/
theorem advanceStep_cases (t : State) (h : s.advanceStep = some t) :
    (s.movec ≠ 16 ∧ t = s) ∨
    (s.movec = 16 ∧ s.seq < s.qlen ∧ ∃ code, s.q[s.seq.toNat]? = some code ∧
      t = State.glyphLoad { s with movec := 0 } code) ∨
    (s.movec = 16 ∧ ¬ s.seq < s.qlen ∧ t = State.blankLoad { s with movec := 0 }) := by
  by_cases hm : s.movec = 16
  · by_cases hs : s.seq < s.qlen
    · refine .inr (.inl ⟨hm, hs, ?_⟩)
      cases hc : s.q[s.seq.toNat]? with
      | none => simp [State.advanceStep, shiftsPerAdvance, hm, hs, State.nextCode, hc] at h
      | some code =>
        rw [advanceStep_glyph s code hm hs hc] at h
        exact ⟨code, rfl, (Option.some.inj h).symm⟩
    · rw [advanceStep_blank s hm hs] at h
      exact .inr (.inr ⟨hm, hs, (Option.some.inj h).symm⟩)
  · rw [advanceStep_skip s hm] at h
    exact .inl ⟨hm, (Option.some.inj h).symm⟩

/-! ### A whole tick -/

theorem execTick_error (msg : Option (List Byte)) (h : s.mode = .error) : execTick msg s = .next s := by
  simp [execTick, h]

/-- A tick in mode Idle, from what its steps answer. -/
theorem execTick_next (msg : Option (List Byte)) (t u : State) (h : s.mode = .idle)
    (ht : (s.poll msg).2.messageStep (s.poll msg).1 = some t) (hu : t.cadenceStep.advanceStep = some u) :
    execTick msg s = .next u.refresh := by
  simp [execTick, h, ht, hu]

/-- A tick with no message, from what its steps answer. -/
theorem execTick_none (u : State) (h : s.mode = .idle) (hi : s.inbox = [])
    (hu : s.cadenceStep.advanceStep = some u) : execTick none s = .next u.refresh :=
  execTick_next s none s u h (by rw [poll_empty s hi]; rfl) hu

/-- A tick that answers did nothing in mode Error, or ran its four steps in mode Idle. -/
theorem execTick_cases (msg : Option (List Byte)) (v : State) (h : execTick msg s = .next v) :
    (s.mode = .error ∧ v = s) ∨
    (s.mode = .idle ∧ ∃ t u, (s.poll msg).2.messageStep (s.poll msg).1 = some t ∧
      t.cadenceStep.advanceStep = some u ∧ v = u.refresh) := by
  cases hm : s.mode with
  | error =>
    rw [execTick_error s msg hm] at h
    exact .inl ⟨rfl, (Host.Outcome.next.inj h).symm⟩
  | idle =>
    refine .inr ⟨rfl, ?_⟩
    simp only [execTick, hm] at h
    split at h
    · cases h
    · rename_i t ht
      split at h
      · cases h
      · rename_i u hu
        exact ⟨t, u, ht, hu, (Host.Outcome.next.inj h).symm⟩

/-- The events of a tick that answers: none in mode Error; in mode Idle an exchange or nothing, then a refresh of the framebuffer
the tick leaves (R160). The driver chip and the signals follow them. -/
theorem execTick_events (msg : Option (List Byte)) (v : State) (h : execTick msg s = .next v) :
    (s.mode = .error ∧ v = s) ∨
    (s.mode = .idle ∧ ∃ pre, (pre = [] ∨ ∃ (u : State) (a : RomAddr), pre = u.exchangeEvents a) ∧
      v.trace = s.trace ++ (pre ++ refreshEvents v.params v.fb) ∧
      v.sink = (pre ++ refreshEvents v.params v.fb).foldl Sink.apply s.sink ∧
      v.pins = (pre ++ refreshEvents v.params v.fb).foldl Event.drive s.pins) := by
  rcases execTick_cases s msg v h with h | ⟨hm, t, u, ht, hu, rfl⟩
  · exact .inl h
  refine .inr ⟨hm, ?_⟩
  obtain ⟨-, -, hs, hp, htr, -, -, -, -, -⟩ := messageStep_keeps _ _ t ht
  rcases advanceStep_cases _ u hu with ⟨-, rfl⟩ | ⟨-, -, code, -, rfl⟩ | ⟨-, -, rfl⟩
  · exact ⟨[], .inl rfl, by simp [htr], by simp [hs], by simp [hp]⟩
  · exact ⟨_, .inr ⟨{ t.cadenceStep with movec := 0 }, glyphAddr t.cadenceStep.params code, rfl⟩,
      by simp [htr], by simp [hs], by simp [hp]⟩
  · exact ⟨[], .inl rfl, by simp [htr], by simp [hs], by simp [hp]⟩

/-- What a tick that answers leaves alone: MODE, the platform's side, the operations held out. -/
theorem execTick_keeps (msg : Option (List Byte)) (v : State) (h : execTick msg s = .next v) :
    v.mode = s.mode ∧ v.rom = s.rom ∧ v.romResponds = s.romResponds ∧ v.params = s.params ∧
      v.pending = s.pending := by
  rcases execTick_cases s msg v h with ⟨-, rfl⟩ | ⟨hm, t, u, ht, hu, rfl⟩
  · exact ⟨rfl, rfl, rfl, rfl, rfl⟩
  obtain ⟨-, hmo, -, -, -, hr, hrr, -, hpe, hpa⟩ := messageStep_keeps _ _ t ht
  rcases advanceStep_cases _ u hu with ⟨-, rfl⟩ | ⟨-, -, code, -, rfl⟩ | ⟨-, -, rfl⟩ <;>
    simp [hmo, hr, hrr, hpe, hpa]

end Sys2Proof.Machine
end

