-- ==== Sys2Proof/Laws/Exec.lean ====
section
/-! SUPPORT. Each operation's outcome as an equation, and what a step is made of, so that proofs cite them and unfold neither
`exec` nor `step`. -/

namespace Sys2Proof.Machine

variable (s : State)

theorem exec_load_readable (payload : List Byte) (h : payloadReadable payload = true) :
    exec (.load payload) s = .next { s with
      q := loadSlots payload s.q, qlen := BitVec.ofNat 8 (payloadCount payload), seq := 0 } := by
  show execLoad payload s = _
  rw [execLoad, loadQueue_readable s payload h]

/-- A LOAD that answers had a readable payload. -/
theorem exec_load_cases (payload : List Byte) (t : State) (h : exec (.load payload) s = .next t) :
    payloadReadable payload = true ∧ t = { s with
      q := loadSlots payload s.q, qlen := BitVec.ofNat 8 (payloadCount payload), seq := 0 } := by
  change execLoad payload s = _ at h
  cases hr : payloadReadable payload with
  | false => rw [execLoad, loadQueue_short s payload hr] at h; cases h
  | true =>
    rw [execLoad, loadQueue_readable s payload hr] at h
    exact ⟨rfl, (Host.Outcome.next.inj h).symm⟩

theorem exec_clrfb : exec .clrfb s = .next { s with fb := blankGrid } := rfl

theorem exec_shift : exec .shift s = .next { s with fb := shiftGrid s.fb } := rfl

theorem exec_resolve (code : Code) : exec (.resolve code) s = .next (s.fetchGlyph (glyphAddr s.params code)) := rfl

theorem exec_wrslot : exec .wrslot s = .next { s with fb := writeSlot s.params s.g s.fb } := rfl

theorem exec_blankslot : exec .blankslot s = .next { s with fb := blankSlot s.fb } := rfl

theorem exec_refresh : exec .refresh s = .next s.refresh := rfl

theorem exec_romRead (a : RomAddr) : exec (.romRead a) s = .next (s.exchange a) := rfl

theorem exec_msg (payload : List Byte) : exec (.msg payload) s = .next { s with inbox := s.inbox ++ [payload] } := rfl

theorem exec_rowsel (v : BitVec 4) : exec (.rowsel v) s = .next (s.emit [.ledRow v]) := rfl

theorem exec_reset (initOk : Bool) : exec (.reset initOk) s = .next { s with
    fb := blankGrid, g := emptyGlyph, q := unspecifiedSlots s.draws, qlen := 0, tickc := 0, movec := 0, seq := 0
    blankc := 0, mode := modeAfterInit initOk, sink := unspecifiedSink s.draws, pins := unspecifiedPins s.draws
    draws := s.draws + 1 } := rfl

theorem exec_tick (msg : Option (List Byte)) : exec (.tick msg) s = execTick msg s := rfl

/-- A glyph load is RESOLVE, WRSLOT and SEQ one up (R155). -/
theorem glyphLoad_eq (code : Code) :
    s.glyphLoad code = { s.fetchGlyph (glyphAddr s.params code) with
      fb := writeSlot s.params (s.received (glyphAddr s.params code)) s.fb, seq := s.seq + 1 } := by
  simp only [State.glyphLoad, State.fetchGlyph_params, State.fetchGlyph_g, State.fetchGlyph_fb, State.fetchGlyph_seq]

theorem shiftGrid_getElem (fb : Grid) (r : Fin 16) : (shiftGrid fb)[r] = shiftRow fb[r] := by simp [shiftGrid]

/-- A step that answers did nothing for want of a frame, or ran the operation of the first one. -/
theorem step_cases (t : State) (h : step s = .next t) :
    (s.pending = [] ∧ t = s) ∨
    ∃ f rest i, s.pending = f :: rest ∧ decode f = .ok i ∧ exec i { s with pending := rest } = .next t := by
  unfold step State.takeFrame at h
  cases hp : s.pending with
  | nil => rw [hp] at h; exact .inl ⟨rfl, (Host.Outcome.next.inj h).symm⟩
  | cons f rest =>
    rw [hp] at h
    cases hd : decode f with
    | error e => simp only [hd] at h; cases h
    | ok i => simp only [hd] at h; exact .inr ⟨f, rest, i, rfl, hd, h⟩

end Sys2Proof.Machine
end

