-- ==== Sys2Proof/Laws/Memory.lean ====
section
/-! SUPPORT. The font ROM's contents: a store keeps the canonical form, a read after a store gives what was stored, and a store
leaves every other address alone. -/

namespace Sys2Proof.Machine

theorem wfFrom_mono {low low' : Nat} (h : low' ≤ low) (m : List Host.Cell) (hm : Memory.wfFrom low m = true) :
    Memory.wfFrom low' m = true := by
  cases m with
  | nil => rfl
  | cons c cs =>
    simp only [Memory.wfFrom, Bool.and_eq_true, decide_eq_true_eq] at hm ⊢
    exact ⟨⟨by omega, hm.1.2⟩, hm.2⟩

theorem storeRom_wfFrom (m : List Host.Cell) (low a : Nat) (b : Byte) (hl : low ≤ a) (ha : a < 2 ^ 24)
    (hm : Memory.wfFrom low m = true) : Memory.wfFrom low (storeRom m a b) = true := by
  induction m generalizing low with
  | nil => simpa [storeRom, Memory.wfFrom, hl] using ha
  | cons c cs ih =>
    have hm' := hm
    simp only [Memory.wfFrom, Bool.and_eq_true, decide_eq_true_eq] at hm
    unfold storeRom
    split
    · rename_i h
      simp only [Memory.wfFrom, Bool.and_eq_true, decide_eq_true_eq]
      exact ⟨⟨hl, ha⟩, ⟨by omega, hm.1.2⟩, hm.2⟩
    · split
      · rename_i h
        simp only [Memory.wfFrom, Bool.and_eq_true, decide_eq_true_eq]
        exact ⟨⟨hl, ha⟩, by rw [h]; exact hm.2⟩
      · simp only [Memory.wfFrom, Bool.and_eq_true, decide_eq_true_eq]
        exact ⟨hm.1, ih _ (by omega) hm.2⟩

/-- A store keeps the canonical form. -/
theorem storeRom_wf (m : List Host.Cell) (a : Nat) (b : Byte) (ha : a < 2 ^ 24) (hm : Memory.wf m = true) :
    Memory.wf (storeRom m a b) = true := storeRom_wfFrom m 0 a b (Nat.zero_le _) ha hm

/-- A run of stores keeps the canonical form. -/
theorem storeBytes_wf (bs : List Byte) (m : List Host.Cell) (a : Nat) (ha : a + bs.length ≤ 2 ^ 24)
    (hm : Memory.wf m = true) : Memory.wf (storeBytes m a bs) = true := by
  induction bs generalizing m a with
  | nil => exact hm
  | cons b bs ih =>
    simp only [List.length_cons] at ha
    exact ih _ _ (by omega) (storeRom_wf m a b (by omega) hm)

/-- What was stored is read back. -/
theorem readRom_storeRom_same (m : List Host.Cell) (a : Nat) (b : Byte) : readRom (storeRom m a b) a = some b := by
  induction m with
  | nil => simp [storeRom, readRom]
  | cons c cs ih =>
    unfold storeRom
    split
    · simp [readRom]
    · split
      · simp [readRom]
      · rename_i h _
        simp only [readRom, if_neg (show ¬ c.1 = a by omega), ih]

/-- Every other address reads as before. -/
theorem readRom_storeRom_other (m : List Host.Cell) (a a' : Nat) (b : Byte) (h : a' ≠ a) :
    readRom (storeRom m a b) a' = readRom m a' := by
  induction m with
  | nil => simp [storeRom, readRom, h.symm]
  | cons c cs ih =>
    unfold storeRom
    split
    · simp [readRom, h.symm]
    · split
      · rename_i _ hc
        simp [readRom, h.symm, show ¬ c.1 = a' by omega]
      · simp only [readRom, ih]

/-- The reset state's ROM contents are in canonical form. -/
theorem reset_rom_wf : Memory.wf State.reset.rom = true := rfl

end Sys2Proof.Machine
end

