-- ==== Sys2Proof/Laws/PerInstr.lean ====
section
/-! SUPPORT. Statements made per operation: the frame of an operation stands in its row's format of the opcode table, and its
first byte is the row's select code or opcode (R63, R66, R68). -/

namespace Sys2Proof.Laws.RowFrame

/-- The format and, where the row fixes one, the first byte that the opcode table gives the operation's row. -/
def row : Instr → Format × Option Byte
  | .reset _ => (.op4, some 1)
  | .load _ => (.op4, some 2)
  | .clrfb => (.op4, some 3)
  | .shift => (.op4, some 4)
  | .resolve _ => (.op4, some 5)
  | .wrslot => (.op4, some 6)
  | .blankslot => (.op4, some 7)
  | .refresh => (.op4, some 8)
  | .tick _ => (.op4, some 9)
  | .romRead _ => (.romFrame, some 3)
  | .msg _ => (.msg, none)
  | .rowsel _ => (.rowSel, none)
  | .reserved0000 => (.op4, some 0)
  | .reserved1010 => (.op4, some 10)
  | .reserved1011 => (.op4, some 11)
  | .reserved1100 => (.op4, some 12)
  | .reserved1101 => (.op4, some 13)
  | .reserved1110 => (.op4, some 14)
  | .reserved1111 => (.op4, some 15)

/-- The encoder keeps to the row. -/
def Statement (i : Instr) : Prop :=
  (encode i).format = (row i).1 ∧ ∀ b, (row i).2 = some b → (encode i).bytes.head? = some b

theorem reset (ok : Bool) : Statement (.reset ok) := ⟨rfl, fun _ h => h⟩
theorem load (payload : List Byte) : Statement (.load payload) := ⟨rfl, fun _ h => h⟩
theorem clrfb : Statement .clrfb := ⟨rfl, fun _ h => h⟩
theorem shift : Statement .shift := ⟨rfl, fun _ h => h⟩
theorem resolve (code : Code) : Statement (.resolve code) := ⟨rfl, fun _ h => h⟩
theorem wrslot : Statement .wrslot := ⟨rfl, fun _ h => h⟩
theorem blankslot : Statement .blankslot := ⟨rfl, fun _ h => h⟩
theorem refresh : Statement .refresh := ⟨rfl, fun _ h => h⟩
theorem tick (m : Option (List Byte)) : Statement (.tick m) := by cases m <;> exact ⟨rfl, fun _ h => h⟩
theorem romRead (a : RomAddr) : Statement (.romRead a) := ⟨rfl, fun _ h => h⟩
theorem msg (payload : List Byte) : Statement (.msg payload) := ⟨rfl, fun _ h => by cases h⟩
theorem rowsel (v : BitVec 4) : Statement (.rowsel v) := ⟨rfl, fun _ h => by cases h⟩
theorem reserved0000 : Statement .reserved0000 := ⟨rfl, fun _ h => h⟩
theorem reserved1010 : Statement .reserved1010 := ⟨rfl, fun _ h => h⟩
theorem reserved1011 : Statement .reserved1011 := ⟨rfl, fun _ h => h⟩
theorem reserved1100 : Statement .reserved1100 := ⟨rfl, fun _ h => h⟩
theorem reserved1101 : Statement .reserved1101 := ⟨rfl, fun _ h => h⟩
theorem reserved1110 : Statement .reserved1110 := ⟨rfl, fun _ h => h⟩
theorem reserved1111 : Statement .reserved1111 := ⟨rfl, fun _ h => h⟩

end Sys2Proof.Laws.RowFrame
end

