-- ==== Sys2Proof/Laws/Run.lean ====
section
/-! SUPPORT. Operations one after another: `times` taken apart and put together, and the ticks of one scroll interval. -/

namespace Sys2Proof.Machine

theorem thenExec_next (s : State) (i : Instr) : thenExec (.next s) i = exec i s := rfl

theorem times_zero (i : Instr) (s : State) : times 0 i s = .next s := rfl

theorem times_succ (n : Nat) (i : Instr) (s : State) : times (n + 1) i s = thenExec (times n i s) i := rfl

theorem times_add (m n : Nat) (i : Instr) (s t : State) (h : times m i s = .next t) :
    times (m + n) i s = times n i t := by
  induction n with
  | zero => rw [Nat.add_zero, h, times_zero]
  | succ n ih => rw [← Nat.add_assoc, times_succ, ih, times_succ]

/-- In range, the queue has the slot a glyph advance reads (R18, R27). -/
theorem nextCode_of_range (s : State) (h : s.qlen.toNat ≤ 20) (hlt : s.seq < s.qlen) :
    ∃ code, s.q[s.seq.toNat]? = some code := by
  have hs : s.seq.toNat < s.qlen.toNat := hlt
  exact ⟨_, Vector.getElem?_eq_getElem (by omega)⟩

/-- In range, the glyph advance answers (R154 to R156). -/
theorem advanceStep_answers (s : State) (h : s.qlen.toNat ≤ 20) : ∃ t, s.advanceStep = some t := by
  by_cases hm : s.movec = 16
  · by_cases hs : s.seq < s.qlen
    · obtain ⟨code, hc⟩ := nextCode_of_range s h hs
      exact ⟨_, advanceStep_glyph s code hm hs hc⟩
    · exact ⟨_, advanceStep_blank s hm hs⟩
  · exact ⟨_, advanceStep_skip s hm⟩

/-- Up to 29 ticks with no message from a fresh count only count themselves and refresh. -/
theorem times_plainTicks (n : Nat) (hn : n ≤ 29) (s : State) (hm : s.mode = .idle) (hi : s.inbox = []) (ht : s.tickc = 0)
    (hv : s.movec ≠ 16) :
    ∃ tr k p, times n (.tick none) s =
      .next { s with tickc := BitVec.ofNat 8 n, trace := tr, sink := k, pins := p } := by
  induction n with
  | zero => exact ⟨s.trace, s.sink, s.pins, by cases s; simp only at ht; subst ht; rfl⟩
  | succ n ih =>
    obtain ⟨tr, k, p, h⟩ := ih (by omega)
    let u : State := { s with tickc := BitVec.ofNat 8 n, trace := tr, sink := k, pins := p }
    have hu : u.tickc ≠ 29 := fun hh => by
      have := congrArg BitVec.toNat (show BitVec.ofNat 8 n = 29 from hh)
      simp at this
      omega
    have ha : u.cadenceStep.advanceStep = some { u with tickc := u.tickc + 1 } := by
      rw [cadenceStep_count u hu]; exact advanceStep_skip { u with tickc := u.tickc + 1 } hv
    have he := execTick_none u _ hm hi ha
    let r := State.refresh { u with tickc := u.tickc + 1 }
    refine ⟨r.trace, r.sink, r.pins, ?_⟩
    have e : BitVec.ofNat 8 (n + 1) = BitVec.ofNat 8 n + 1 := by simp [BitVec.ofNat_add]
    rw [times_succ, h, thenExec_next, exec_tick]
    rw [e]
    exact he

end Sys2Proof.Machine
end

