-- ==== Sys2Proof/Tests/Slice0.lean ====
section
/-! SUPPORT. Small tests against the spec's own vectors (spec/95_test_vectors.md, named V-… and E…) and hand calculation, and a
witness for the hypotheses of every obligation that has any. -/

open Sys2Proof Sys2Proof.Machine

namespace Sys2Proof.Tests

/-! ### Helpers -/

/-- The state an operation leaves, or the state after reset where it leaves none. -/
def after (o : Host.Outcome State Fault Refusal) : State :=
  match o with
  | .next t => t
  | _ => State.reset

theorem after_next (s : State) : after (.next s) = s := rfl

/-- The test ROM of the vectors: `a[7:0] xor a[15:8] xor 0x5A`. -/
def testByte (a : RomAddr) : Byte := a.extractLsb' 0 8 ^^^ a.extractLsb' 8 8 ^^^ 0x5A

/-- 32 bytes of the test ROM from an address on. -/
def testRom (a : RomAddr) : List Host.Cell :=
  storeBytes [] a.toNat ((List.range 32).map fun i => testByte (a + BitVec.ofNat 24 i))

/-- A framebuffer with one row given, the others zero. -/
def gridWith (r : Fin 16) (row : Row) : Grid := State.reset.fb.set r row

/-- A queue with one code first. -/
def queueOf (code : Code) : Slots := State.reset.q.set 0 code

/-- Mode Idle on the last tick before the 16th SHIFT, one code in the queue. -/
def atAdvance (seq blankc : BitVec 8) : State :=
  { State.reset with tickc := 29, movec := 15, seq := seq, qlen := 1, q := queueOf 0xD6D0, blankc := blankc }

/-- Mode Idle with fresh counts of ticks and SHIFTs, one code in the queue. -/
def freshQueue (seq blankc : BitVec 8) : State :=
  { State.reset with qlen := 1, q := queueOf 0xD6D0, seq := seq, blankc := blankc }

/-- The state after reset in mode Error. -/
def stopped : State := { State.reset with mode := .error }

/-! ### Well-formedness: an ill-formed term for each check -/

/-- R68: no reserved code is well formed. -/
theorem test_wf_refuses_reserved :
    [Instr.reserved0000, .reserved1010, .reserved1011, .reserved1100, .reserved1101, .reserved1110,
      .reserved1111].map WellFormed = List.replicate 7 false := by decide

/-- V-LD7: no count byte. -/
theorem test_wf_refuses_load_without_count : WellFormed (.load [0x00]) = false := by decide

/-- V-LD6: two bytes short of its count. -/
theorem test_wf_refuses_short_load : WellFormed (.load [0x00, 0x03, 0x4E, 0x2D, 0x65, 0x87]) = false := by decide

/-- V-TK12: a tick that carries such a message. -/
theorem test_wf_refuses_short_tick : WellFormed (.tick (some [0x00, 0x03, 0x4E, 0x2D])) = false := by decide

/-- R69: a payload handed over with no count byte. -/
theorem test_wf_refuses_short_msg : WellFormed (.msg []) = false := by decide

/-- R125: a count of 0 needs no code. -/
theorem test_wf_accepts_empty_message :
    WellFormed (.load [0x00, 0x00]) = true ∧ WellFormed (.tick (some [0x00, 0x00])) = true ∧
      WellFormed (.msg [0x00, 0x00]) = true ∧ WellFormed (.tick none) = true := by decide

/-! ### Decoding: words written out from R66, R68, R61, R63 and R64 -/

theorem test_decode_reset :
    decode ⟨.op4, [0b0001, 1]⟩ = .ok (.reset true) ∧ decode ⟨.op4, [0b0001, 0]⟩ = .ok (.reset false) := by decide
theorem test_decode_load : decode ⟨.op4, [0b0010, 0x7F, 0x01, 0xD6, 0xD0]⟩ = .ok (.load [0x7F, 0x01, 0xD6, 0xD0]) := by
  decide
theorem test_decode_clrfb : decode ⟨.op4, [0b0011]⟩ = .ok .clrfb := by decide
theorem test_decode_shift : decode ⟨.op4, [0b0100]⟩ = .ok .shift := by decide
theorem test_decode_resolve : decode ⟨.op4, [0b0101, 0xB0, 0xA1]⟩ = .ok (.resolve 0xB0A1) := by decide
theorem test_decode_wrslot : decode ⟨.op4, [0b0110]⟩ = .ok .wrslot := by decide
theorem test_decode_blankslot : decode ⟨.op4, [0b0111]⟩ = .ok .blankslot := by decide
theorem test_decode_refresh : decode ⟨.op4, [0b1000]⟩ = .ok .refresh := by decide
theorem test_decode_tick :
    decode ⟨.op4, [0b1001]⟩ = .ok (.tick none) ∧
      decode ⟨.op4, [0b1001, 1, 0x00, 0x01, 0xA1, 0xA1]⟩ = .ok (.tick (some [0x00, 0x01, 0xA1, 0xA1])) := by decide
/-- V-RM2: the frame for address 122E20. -/
theorem test_decode_romRead :
    decode ⟨.romFrame, [0b00000011, 0b00010010, 0b00101110, 0b00100000]⟩ = .ok (.romRead 0x122E20) := by decide
theorem test_decode_msg : decode ⟨.msg, [0x41, 0x01, 0xB0, 0xA1]⟩ = .ok (.msg [0x41, 0x01, 0xB0, 0xA1]) := by decide
theorem test_decode_rowsel : decode ⟨.rowSel, [0b1010]⟩ = .ok (.rowsel 10) := by decide
theorem test_decode_reserved :
    decode ⟨.op4, [0b0000]⟩ = .ok .reserved0000 ∧ decode ⟨.op4, [0b1010]⟩ = .ok .reserved1010 ∧
      decode ⟨.op4, [0b1011]⟩ = .ok .reserved1011 ∧ decode ⟨.op4, [0b1100]⟩ = .ok .reserved1100 ∧
      decode ⟨.op4, [0b1101]⟩ = .ok .reserved1101 ∧ decode ⟨.op4, [0b1110]⟩ = .ok .reserved1110 ∧
      decode ⟨.op4, [0b1111]⟩ = .ok .reserved1111 := by decide
theorem test_decode_rejects :
    decode ⟨.op4, []⟩ = .error .operandMissing ∧ decode ⟨.op4, [0x10]⟩ = .error .fieldTooWide ∧
      decode ⟨.romFrame, [0x0B, 0, 0, 0]⟩ = .error .notReadOpcode ∧ decode ⟨.rowSel, [0x10]⟩ = .error .fieldTooWide := by
  decide

/-- The opcode table's own words: a select code, the MSG header, a ROMFRAME. -/
theorem test_table_words :
    decodeTableWord 8 0x4 = some .shift ∧ decodeTableWord 8 0x9 = some (.tick none) ∧
      decodeTableWord 32 0x03122E20 = some (.romRead 0x122E20) ∧ decodeTableWord 32 0x02122E20 = none := by decide
theorem test_table_word_runs :
    step (State.reset.withFetchWord 8 0x9) = exec (.tick none) State.reset ∧
      step (State.reset.withFetchWord 32 0x03122E20) = exec (.romRead 0x122E20) State.reset := ⟨rfl, rfl⟩

/-! ### GetAddress (V-GA1 to V-GA26, FONT_BASE 0x100000 and R82's bound) -/

theorem test_address_rules :
    [0xA1A1#16, 0xA1FF, 0xA3FF, 0xA4A1, 0xA4A0, 0xA8FF, 0xA9A1, 0xA9FF, 0xB0A1].map (getAddress 0x100000) =
      [0x100000, 0x100BC0, 0x102340, 0x100000, 0, 0x100000, 0x105E00, 0x1069C0, 0x1069C0] := by decide
theorem test_address_bounds :
    [0xB0A0#16, 0xCEC4, 0xD6D0, 0xD7D6, 0xF7FE, 0xF7FF, 0xF8A1, 0xAFFE, 0x4E2D].map (getAddress 0x100000) =
      [0, 0x11CEA0, 0x122E20, 0x123AA0, 0x13B7A0, 0x13B7C0, 0, 0, 0] := by decide
theorem test_address_truncated :
    glyphAddr { Params.default with fontBase := 0xFC483F } 0xF7FF = 0xFFFFFF ∧
      glyphAddr { Params.default with fontBase := 0xFC4840 } 0xF7FF = 0 := by decide

/-! ### One step of each operation -/

/-- V-TK2: RESET with `init_ok` 0. -/
theorem test_reset_error :
    (after (exec (.reset false) (atAdvance 1 3))).mode = .error ∧ (after (exec (.reset false) (atAdvance 1 3))).qlen = 0 ∧
      (after (exec (.reset false) (atAdvance 1 3))).blankc = 0 := by decide

/-- V-LD5: a shorter queue keeps the old codes above its count. -/
theorem test_load_keeps_stale :
    ((after (exec (.load [0x00, 0x02, 0xA1, 0xA1, 0xA1, 0xA2])
      { State.reset with q := (queueOf 0xB0A1).set 2 0xB0A3, qlen := 20, seq := 7 })).q.toList.take 4) =
      [0xA1A1, 0xA1A2, 0xB0A3, 0x0000] := by decide
/-- V-LD4: a count of 255 is 20, and 42 bytes suffice. -/
theorem test_load_clamps :
    (after (exec (.load (0x00 :: 0xFF :: List.replicate 40 0xB0)) State.reset)).qlen = 20 := by decide

/-- V-FB3. -/
theorem test_clrfb :
    ((after (exec .clrfb { State.reset with fb := gridWith 9 (Vector.replicate 12 0xAA) })).fb[9]).toList =
      List.replicate 12 0 := by decide

/-- V-SH4: every carry case in one row. -/
theorem test_shift_carries :
    ((after (exec .shift { State.reset with
      fb := gridWith 6 #v[0x01, 0x80, 0x55, 0xAA, 0x7F, 0xC0, 0x00, 0xFF, 0x81, 0x3C, 0xE7, 0x96] })).fb[6]).toList =
      [0x02, 0x00, 0xAB, 0x54, 0xFF, 0x80, 0x01, 0xFE, 0x03, 0x79, 0xCE, 0x2D] := by decide
/-- V-SH7: the bit lost from row 3 enters no other row. -/
theorem test_shift_rows_apart :
    let t := after (exec .shift { State.reset with fb := gridWith 3 #v[0, 0, 0, 0, 0, 0, 0, 0, 0, 0, 0, 0x80] })
    (t.fb[3]).toList = List.replicate 12 0 ∧ (t.fb[4]).toList = List.replicate 12 0 ∧
      (t.fb[0]).toList = List.replicate 12 0 := by decide

/-- V-RM5: RESOLVE B0A1 with the test ROM. -/
theorem test_resolve_glyph :
    (((after (exec (.resolve 0xB0A1) { State.reset with rom := testRom 0x1069C0 })).g).toList.take 17) =
      [0xF3, 0xF2, 0xF1, 0xF0, 0xF7, 0xF6, 0xF5, 0xF4, 0xFB, 0xFA, 0xF9, 0xF8, 0xFF, 0xFE, 0xFD, 0xFC, 0xE3] := by decide
/-- V-RM1 and V-RM5: the events around and at the start of the response. -/
theorem test_resolve_events :
    (((after (exec (.resolve 0xB0A1) { State.reset with rom := testRom 0x1069C0 })).trace).take 41) =
      .romSel true :: ([0, 0, 0, 0, 0, 0, 1, 1, 0, 0, 0, 1, 0, 0, 0, 0, 0, 1, 1, 0, 1, 0, 0, 1, 1, 1, 0, 0, 0, 0, 0,
        0].map fun b => Event.romTx (b == 1)) ++ [1, 1, 1, 1, 0, 0, 1, 1].map fun b => Event.romRx (b == 1) := by decide

/-- V-FB1, with the default SLOT_MAP. -/
theorem test_wrslot_row :
    ((after (exec .wrslot { State.reset with
      g := Vector.ofFn fun i => BitVec.ofNat 8 i.val, fb := gridWith 15 (Vector.replicate 12 0xAA) })).fb[15]).toList =
      [0x1E, 0x1F, 0xAA, 0xAA, 0xAA, 0xAA, 0xAA, 0xAA, 0xAA, 0xAA, 0xAA, 0xAA] := by decide

/-- R102's example, G kept. -/
theorem test_blankslot_row :
    ((after (exec .blankslot { State.reset with fb := gridWith 3 (Vector.replicate 12 0xFF) })).fb[3]).toList =
      [0, 0, 0xFF, 0xFF, 0xFF, 0xFF, 0xFF, 0xFF, 0xFF, 0xFF, 0xFF, 0xFF] := by decide

/-- R131's example: row 0 with A5 in column 2. -/
theorem test_refresh_first_row :
    ((after (exec .refresh { State.reset with fb := gridWith 0 #v[0xFF, 0xFF, 0xA5, 0, 0, 0, 0, 0, 0, 0, 0, 0] })).trace).take 84 =
      [1, 0, 1, 0, 0, 1, 0, 1].map (fun b => Event.ledTx (b == 1)) ++ List.replicate 72 (.ledTx false) ++
        [.ledOe false, .ledLatch, .ledRow 0, .ledOe true] := by decide
/-- V-RF1 and V-RF4: after the last row. -/
theorem test_refresh_last_row :
    (after (exec .refresh { State.reset with fb := gridWith 15 #v[0, 0, 0, 0, 0, 0, 0, 0, 0, 0, 0xC0, 0x01] })).sink =
      ⟨0xC001, 0xC001, true, 15⟩ := by
  rw [exec_refresh, after_next, State.refresh_sink, foldl_refreshEvents]
  decide

/-- V-TK5: the glyph advance. -/
theorem test_tick_loads_glyph :
    let t := after (exec (.tick none) { atAdvance 0 2 with rom := testRom 0x122E20 })
    t.seq = 1 ∧ t.blankc = 2 ∧ t.tickc = 0 ∧ t.movec = 0 ∧ (t.fb[0]).toList.take 3 = [0x54, 0x55, 0] := by decide
/-- V-TK7: the fifth blank load. -/
theorem test_tick_restarts_message :
    let t := after (exec (.tick none) (atAdvance 1 4))
    t.seq = 0 ∧ t.blankc = 0 ∧ t.movec = 0 ∧ t.qlen = 1 := by decide

/-- R63, R43: the first byte sampled for the frame of address 122E20 with the test ROM is 54 (V-RM7). -/
theorem test_romRead_samples :
    (((after (exec (.romRead 0x122E20) { State.reset with rom := testRom 0x122E20 })).trace).drop 33).take 8 =
      [0, 1, 0, 1, 0, 1, 0, 0].map fun b => Event.romRx (b == 1) := by decide
/-- R15: the frame alone leaves G as it was. -/
theorem test_romRead_keeps_glyph :
    (after (exec (.romRead 0x122E20) { State.reset with g := Vector.replicate 32 0x77 })).g.toList =
      List.replicate 32 0x77 := by decide

/-- R54: a message handed over is taken by the next tick, which loads its one code. -/
theorem test_msg_then_tick :
    let t := after (exec (.tick none) (after (exec (.msg [0x41, 0x01, 0xA1, 0xA1]) State.reset)))
    t.qlen = 1 ∧ t.q[0] = 0xA1A1 ∧ t.tickc = 1 ∧ t.inbox = [] := by decide

/-- R205: line `k` gets bit `k`. -/
theorem test_rowsel_lines :
    let t := after (exec (.rowsel 0b0110) State.reset)
    t.pins.ledA0 = false ∧ t.pins.ledA1 = true ∧ t.pins.ledA2 = true ∧ t.pins.ledA3 = false := by decide

/-- V-TK13. -/
theorem test_reserved_refused :
    exec .reserved0000 State.reset = .refused (.reservedSelect 0) ∧
      exec .reserved1111 State.reset = .refused (.reservedSelect 15) := ⟨rfl, rfl⟩

/-- V-TK12: refused, whatever the state. -/
theorem test_short_message_refused :
    exec (.tick (some [0x00, 0x03, 0x4E, 0x2D])) State.reset = .refused .shortPayload := rfl

/-! ### Witnesses: each obligation's hypotheses, met together -/

theorem witness_StepRunsPresentedFrame_run :
    (State.reset.offerFrame ⟨.op4, [0x04]⟩).pending = ⟨.op4, [0x04]⟩ :: [] ∧ decode ⟨.op4, [0x04]⟩ = .ok .shift := by
  decide
theorem witness_StepRunsPresentedFrame_refuse :
    (State.reset.offerFrame ⟨.op4, []⟩).pending = ⟨.op4, []⟩ :: [] ∧ decode ⟨.op4, []⟩ = .error .operandMissing := by
  decide
theorem witness_StepRunsPresentedFrame_rest : State.reset.pending = [] := rfl

theorem witness_ForeignFramesRejected :
    (0x02 : Byte) ≠ 0x03 ∧ (0x04 : Byte) ≠ 0x03 ∧ 16 ≤ (0x10 : Byte).toNat ∧ 16 ≤ (0xFF : Byte).toNat ∧
      2 ≤ (0x02 : Byte).toNat ∧ ([0x03, 0x12, 0x2E] : List Byte).length < 4 ∧ ([0xB0] : List Byte).length < 2 := by decide

/-- Counts 0, 20 and 255; the last slot loaded and the first one kept. -/
theorem witness_LoadFillsQueue :
    2 * min (0x00 : Byte).toNat 20 ≤ ([] : List Byte).length ∧
      2 * min (0x14 : Byte).toNat 20 ≤ (List.replicate 40 (0xB0 : Byte)).length ∧
      2 * min (0xFF : Byte).toNat 20 ≤ (List.replicate 40 (0xB0 : Byte)).length ∧
      (19 : Fin 20).val < min (0x14 : Byte).toNat 20 ∧ min (0x13 : Byte).toNat 20 ≤ (19 : Fin 20).val := by decide

/-- No count byte; and one byte short of 20 codes. -/
theorem witness_LoadFillsQueue_short :
    ([0x00] : List Byte).length < 2 ∧
      (let payload : List Byte := 0x00 :: 0x15 :: List.replicate 39 0xB0
       payload.length < 2 + 2 * min (payload.getD 1 0).toNat 20) := by decide
theorem witness_ShortMessageRefused_no_count : State.reset.mode = .idle ∧ ([0x00] : List Byte).length < 2 := by decide
theorem witness_ShortMessageRefused_no_codes :
    let payload : List Byte := 0x00 :: 0x15 :: List.replicate 39 0xB0
    State.reset.mode = .idle ∧ payload.length < 2 + 2 * min (payload.getD 1 0).toNat 20 := by decide

theorem witness_LoadIgnoresTagAndTail :
    ([] : List Byte).length = 2 * min (0x00 : Byte).toNat 20 ∧
      (List.replicate 40 (0xB0 : Byte)).length = 2 * min (0xFF : Byte).toNat 20 := by decide

theorem witness_WrslotWritesActiveSlot : 2 ≤ (2 : Fin 12).val ∧ 2 ≤ (11 : Fin 12).val := by decide
theorem witness_BlankslotClearsActiveSlot : 2 ≤ (2 : Fin 12).val ∧ 2 ≤ (11 : Fin 12).val := by decide
theorem witness_BlankslotIsWrslotOfZeroGlyph : ∀ i : Fin 32, State.reset.g[i] = 0 := by decide

theorem witness_ShiftMovesEveryBitUp :
    1 ≤ (1 : Fin 8).val ∧ 1 ≤ (7 : Fin 8).val ∧ 1 ≤ (1 : Fin 12).val ∧ ¬ 1 ≤ (0 : Fin 12).val := by decide
/-- Two framebuffers that differ in row 4 and agree in row 0. -/
theorem witness_ShiftRowsIndependent :
    ∃ t t', State.reset.fb[(0 : Fin 16)] = (gridWith 4 (Vector.replicate 12 0xFF))[(0 : Fin 16)] ∧
      exec .shift State.reset = .next t ∧
      exec .shift { State.reset with fb := gridWith 4 (Vector.replicate 12 0xFF) } = .next t' :=
  ⟨_, _, by decide, rfl, rfl⟩
theorem witness_RepeatedShiftMovesRowWord : 96 ≤ 96 := le_refl _

/-- The first and the last byte of a glyph, listed. -/
theorem witness_ResolveFetchesGlyph :
    let s : State := { State.reset with rom := testRom 0x1069C0 }
    s.romByte (BitVec.ofNat 24 (0x1069C0 + 0)) = some 0xF3 ∧ s.romByte (BitVec.ofNat 24 (0x1069C0 + 31)) = some 0xEC := by
  decide
/-- The same across the top of the address space. -/
theorem witness_RomReadExchange :
    let s : State := { State.reset with rom := [(0, 0x11), (0xFFFFFF, 0x22)] }
    s.romByte (BitVec.ofNat 24 (0xFFFFFF + 0)) = some 0x22 ∧ s.romByte (BitVec.ofNat 24 (0xFFFFFF + 1)) = some 0x11 := by
  decide
theorem witness_ExchangeFrame_resolve : (∃ code, Instr.resolve 0xB0A1 = .resolve code) ∨ ∃ a, Instr.resolve 0xB0A1 = .romRead a :=
  .inl ⟨_, rfl⟩
theorem witness_ExchangeFrame_romRead : (∃ code, Instr.romRead 0 = .resolve code) ∨ ∃ a, Instr.romRead 0 = .romRead a :=
  .inr ⟨_, rfl⟩
/-- Two states that differ in the framebuffer, with no byte of the ROM listed. -/
theorem witness_ResolveIsPure :
    let s' : State := { State.reset with fb := gridWith 4 (Vector.replicate 12 0xFF) }
    State.reset.rom = s'.rom ∧ State.reset.romResponds = true ∧ s'.romResponds = true ∧ State.reset.params = s'.params :=
  ⟨rfl, rfl, rfl, rfl⟩

/-- Two framebuffers that differ in column 1 only. -/
theorem witness_RefreshDependsOnVisibleColumns :
    let s : State := State.reset
    let s' : State := { State.reset with fb := gridWith 5 ((Vector.replicate 12 0).set 1 0x22) }
    s.params.rowSelect = s'.params.rowSelect ∧
      ∀ (r : Fin 16) (c : Fin 12), 2 ≤ c.val → s.fb[r][c] = s'.fb[r][c] := ⟨rfl, by decide⟩
/-- The first and last event counts of row 0 and of row 15, shown and dark. -/
theorem witness_RefreshShowsEachRow :
    (84 * ((0 : Fin 16).val + 1) ≤ 84 ∧ 84 ≤ 84 * ((0 : Fin 16).val + 1) + 80) ∧
      (84 * ((15 : Fin 16).val + 1) ≤ 1424 ∧ 1424 ≤ 84 * ((15 : Fin 16).val + 1) + 80) ∧
      (84 * (0 : Fin 16).val + 81 ≤ 81 ∧ 81 ≤ 84 * (0 : Fin 16).val + 83) ∧
      (84 * (15 : Fin 16).val + 81 ≤ 1343 ∧ 1343 ≤ 84 * (15 : Fin 16).val + 83) := by decide
theorem witness_LatchAndSelectOnlyWhileDisabled_refresh :
    ∃ t, (Instr.refresh = .refresh ∨ ∃ msg, Instr.refresh = .tick msg) ∧ exec .refresh State.reset = .next t :=
  ⟨_, .inl rfl, rfl⟩
theorem witness_LatchAndSelectOnlyWhileDisabled_tick :
    ∃ t, (Instr.tick none = .refresh ∨ ∃ msg, Instr.tick none = .tick msg) ∧ exec (.tick none) (atAdvance 0 0) = .next t :=
  ⟨_, .inr ⟨_, rfl⟩, rfl⟩

theorem witness_RefreshLeavesSignals :
    ∃ t, State.reset.mode = .idle ∧ exec (.tick none) State.reset = .next t := ⟨_, rfl, rfl⟩

theorem witness_TickInErrorDoesNothing : stopped.mode = .error := rfl

/-- The tick of a glyph advance: in range, no message. -/
theorem witness_IdleTickCompletes_advance :
    (atAdvance 0 0).mode = .idle ∧ (atAdvance 0 0).InRange ∧
      ∀ payload, ((atAdvance 0 0).poll none).1 = some payload → payloadReadable payload = true :=
  ⟨rfl, ⟨by decide, by decide, by decide, by decide, by decide⟩, fun _ h => by cases h⟩
/-- A tick given the empty message, at the ends of every range. -/
theorem witness_IdleTickCompletes_message :
    let s : State := { atAdvance 20 4 with qlen := 20 }
    s.mode = .idle ∧ s.InRange ∧
      ∀ payload, (s.poll (some [0x00, 0x00])).1 = some payload → payloadReadable payload = true :=
  ⟨rfl, ⟨by decide, by decide, by decide, by decide, by decide⟩, fun _ h => by cases h; rfl⟩
theorem witness_MessageTick : State.reset.mode = .idle ∧ payloadReadable [0x00, 0x00] = true := by decide
theorem witness_TickTakesWaitingMessageOnce_waiting :
    let s : State := { State.reset with inbox := [[0x00, 0x00], [0x00, 0x01, 0xA1, 0xA1]] }
    s.mode = .idle ∧ s.inbox = [0x00, 0x00] :: [[0x00, 0x01, 0xA1, 0xA1]] := by decide
theorem witness_TickTakesWaitingMessageOnce_given :
    ∃ t, exec (.tick (some [0x00, 0x00])) State.reset = .next t := ⟨_, rfl⟩
/-- The tick before the 30th. -/
theorem witness_PlainTick :
    let s : State := { State.reset with tickc := 28, movec := 15 }
    s.mode = .idle ∧ s.inbox = [] ∧ s.tickc ≠ 29 ∧ s.movec ≠ 16 := by decide
/-- V-TK4's state, and the one before the last SHIFT of an advance. -/
theorem witness_ThirtiethTickShifts :
    let s : State := { State.reset with tickc := 29, movec := 3 }
    s.mode = .idle ∧ s.inbox = [] ∧ s.tickc = 29 ∧ s.movec ≠ 15 := by decide
/-- V-TK5's state. -/
theorem witness_GlyphAdvanceTick :
    let s := atAdvance 0 2
    s.mode = .idle ∧ s.inbox = [] ∧ s.tickc = 29 ∧ s.movec = 15 ∧ s.seq < s.qlen ∧
      s.q[s.seq.toNat]? = some 0xD6D0 := by decide
/-- V-TK6's state: not the fifth blank load. -/
theorem witness_BlankAdvanceTick_count :
    let s := atAdvance 1 3
    s.mode = .idle ∧ s.inbox = [] ∧ s.tickc = 29 ∧ s.movec = 15 ∧ s.seq = s.qlen ∧ s.blankc ≠ 4 := by decide
/-- V-TK7's state: the fifth blank load. -/
theorem witness_BlankAdvanceTick_restart :
    let s := atAdvance 1 4
    s.mode = .idle ∧ s.inbox = [] ∧ s.tickc = 29 ∧ s.movec = 15 ∧ s.seq = s.qlen ∧ s.blankc = 4 := by decide
theorem witness_IdleTickEndsShowingLastRow :
    ∃ t, State.reset.mode = .idle ∧ exec (.tick (some [0x00, 0x00])) State.reset = .next t := ⟨_, rfl, rfl⟩
theorem witness_ThirtyTicksShiftOnce :
    let s : State := { State.reset with movec := 14 }
    s.mode = .idle ∧ s.inbox = [] ∧ s.tickc = 0 ∧ s.movec.toNat < 15 := by decide
/-- An entry left, at the largest BLANKC. -/
theorem witness_GlyphAdvanceEvery480Ticks_entry :
    let s := freshQueue 0 4
    s.mode = .idle ∧ s.inbox = [] ∧ s.InRange ∧ s.tickc = 0 ∧ s.movec = 0 ∧ s.seq < s.qlen :=
  ⟨rfl, rfl, ⟨by decide, by decide, by decide, by decide, by decide⟩, rfl, rfl, by decide⟩
/-- No entry left, three blank loads done. -/
theorem witness_GlyphAdvanceEvery480Ticks_blank :
    let s := freshQueue 1 3
    s.mode = .idle ∧ s.inbox = [] ∧ s.InRange ∧ s.tickc = 0 ∧ s.movec = 0 ∧ s.seq = s.qlen ∧ s.blankc ≠ 4 :=
  ⟨rfl, rfl, ⟨by decide, by decide, by decide, by decide, by decide⟩, rfl, rfl, by decide⟩
/-- No entry left, four blank loads done. -/
theorem witness_GlyphAdvanceEvery480Ticks_restart :
    let s := freshQueue 1 4
    s.mode = .idle ∧ s.inbox = [] ∧ s.InRange ∧ s.tickc = 0 ∧ s.movec = 0 ∧ s.seq = s.qlen ∧ s.blankc = 4 :=
  ⟨rfl, rfl, ⟨by decide, by decide, by decide, by decide, by decide⟩, rfl, rfl, by decide⟩
/-- The longest queue and the empty one. -/
theorem witness_MessageRepeats :
    let s (qlen : BitVec 8) : State := { State.reset with qlen := qlen }
    ∀ qlen ∈ [0#8, 20#8], (s qlen).mode = .idle ∧ (s qlen).inbox = [] ∧ (s qlen).qlen.toNat ≤ 20 ∧ (s qlen).tickc = 0 ∧
      (s qlen).movec = 0 ∧ (s qlen).seq = 0 ∧ (s qlen).blankc = 0 := by decide

/-- A state with known ROM bytes at both ends of the space and a message tick presented. -/
theorem witness_EveryStepKeepsInvariant :
    let s : State := { State.reset with
      rom := [(0, 0x11), (0xFFFFFF, 0x22)], pending := [⟨.op4, [0x09, 0x01, 0x00, 0x00]⟩] }
    s.Inv ∧ ∃ t, step s = .next t :=
  ⟨⟨⟨by decide, by decide, by decide, by decide, by decide⟩, ⟨by decide, by decide⟩⟩, _, rfl⟩
theorem witness_NoStepWritesRomOrParameters : ∃ t, step (State.reset.withFetchWord 8 0x1) = .next t := ⟨_, rfl⟩
theorem witness_OnlyResetChangesMode :
    ∃ t, exec (.reset false) State.reset = .next t ∧ t.mode ≠ State.reset.mode := ⟨_, rfl, by decide⟩
theorem witness_OnlyOwnersWriteBlockState_fb :
    ∃ t, exec .shift { State.reset with fb := gridWith 0 ((Vector.replicate 12 0).set 0 1) } = .next t ∧
      (∀ initOk, Instr.shift ≠ .reset initOk) ∧ (∀ msg, Instr.shift ≠ .tick msg) ∧
      t.fb ≠ gridWith 0 ((Vector.replicate 12 0).set 0 1) :=
  ⟨_, rfl, nofun, nofun, fun h => absurd (congrArg (fun fb : Grid => fb[0][0]) h) (by decide)⟩
theorem witness_OnlyOwnersWriteBlockState_g :
    ∃ t, exec (.resolve 0xB0A1) { State.reset with rom := testRom 0x1069C0 } = .next t ∧
      (∀ initOk, Instr.resolve 0xB0A1 ≠ .reset initOk) ∧ (∀ msg, Instr.resolve 0xB0A1 ≠ .tick msg) ∧
      t.g ≠ State.reset.g :=
  ⟨_, rfl, nofun, nofun, fun h => absurd (congrArg (fun g : Glyph => g[0]) h) (by decide)⟩
theorem witness_OnlyOwnersWriteBlockState_queue :
    ∃ t, exec (.load [0x00, 0x01, 0xA1, 0xA1]) State.reset = .next t ∧
      (∀ initOk, Instr.load [0x00, 0x01, 0xA1, 0xA1] ≠ .reset initOk) ∧
      (∀ msg, Instr.load [0x00, 0x01, 0xA1, 0xA1] ≠ .tick msg) ∧ t.qlen ≠ State.reset.qlen :=
  ⟨_, rfl, nofun, nofun, by decide⟩
theorem witness_TraceGrowsAndDevicesFollow :
    ∃ t, exec (.tick none) (atAdvance 0 0) = .next t ∧ ∀ initOk, Instr.tick none ≠ .reset initOk := ⟨_, rfl, nofun⟩
theorem witness_PortsReturnToRest :
    ∃ t, exec (.tick none) (atAdvance 0 0) = .next t ∧ (∀ initOk, Instr.tick none ≠ .reset initOk) ∧
      PortsAtRest (atAdvance 0 0).pins := ⟨_, rfl, nofun, ⟨rfl, rfl, rfl, rfl⟩⟩
/-- Each of the four classes, and two at once (R176). -/
theorem witness_ErrorClassesStopNothing :
    errorsMet (.reset false) State.reset = [.init] ∧
      errorsMet (.load (0x00 :: 0x15 :: List.replicate 40 0xB0)) State.reset = [.count] ∧
      (Instr.load (0x00 :: 0x15 :: List.replicate 40 0xB0)).payloadComplete = true ∧
      errorsMet (.resolve 0x0041) State.reset = [.code] ∧
      errorsMet (.resolve 0x0041) { State.reset with romResponds := false } = [.code, .rom] ∧
      errorsMet (.tick none) { atAdvance 0 0 with romResponds := false } = [.rom] ∧
      State.reset.InRange ∧ (atAdvance 0 0).InRange ∧ State.reset.inbox = [] :=
  ⟨by decide, by decide, by decide, by decide, by decide, by decide,
    ⟨by decide, by decide, by decide, by decide, by decide⟩,
    ⟨by decide, by decide, by decide, by decide, by decide⟩, rfl⟩

end Sys2Proof.Tests
end

section
/-! PROOF. The trace only grows, and the driver chip and the signals follow it (R9, R29, R205). -/

namespace Sys2Proof.Machine

/-- `t` differs from `s` on the outside by exactly the events `es`: they stand at the end of the trace (R9), and the driver chip
(R29) and the signals (R205) have followed them. -/
structure Emits (s t : State) (es : List Event) : Prop where
  trace : t.trace = s.trace ++ es
  sink : t.sink = es.foldl Sink.apply s.sink
  pins : t.pins = es.foldl Event.drive s.pins

variable (s : State)

theorem emits_nil {t : State} (htrace : t.trace = s.trace) (hsink : t.sink = s.sink) (hpins : t.pins = s.pins) :
    Emits s t [] := ⟨by simp [htrace], hsink, hpins⟩

theorem emits_emit (es : List Event) : Emits s (s.emit es) es := ⟨rfl, rfl, rfl⟩

theorem emits_refresh : Emits s s.refresh (refreshEvents s.params s.fb) := emits_emit s _

theorem emits_exchange (a : RomAddr) : Emits s (s.exchange a) (s.exchangeEvents a) :=
  ⟨State.exchange_trace s a, State.exchange_sink s a, State.exchange_pins s a⟩

theorem emits_fetchGlyph (a : RomAddr) : Emits s (s.fetchGlyph a) (s.exchangeEvents a) :=
  ⟨State.fetchGlyph_trace s a, State.fetchGlyph_sink s a, State.fetchGlyph_pins s a⟩

theorem execTick_emits (msg : Option (List Byte)) (t : State) (h : execTick msg s = .next t) : ∃ es, Emits s t es := by
  rcases execTick_events s msg t h with ⟨-, rfl⟩ | ⟨-, pre, -, htrace, hsink, hpins⟩
  · exact ⟨[], emits_nil t rfl rfl rfl⟩
  · exact ⟨_, htrace, hsink, hpins⟩

/-- RESET gives no event; the driver chip and the signals it leaves are free values (R30, R193). -/
theorem exec_reset_trace (initOk : Bool) (t : State) (h : exec (.reset initOk) s = .next t) : t.trace = s.trace := by
  rw [exec_reset] at h
  cases h
  rfl

/-- Every operation but RESET acts on the outside by its events alone. -/
theorem exec_emits (i : Instr) (t : State) (h : exec i s = .next t) (hi : ∀ initOk, i ≠ .reset initOk) :
    ∃ es, Emits s t es := by
  cases i with
  | reset initOk => exact absurd rfl (hi initOk)
  | tick msg => exact execTick_emits s msg t h
  | load payload =>
    obtain ⟨-, rfl⟩ := exec_load_cases s payload t h
    exact ⟨[], emits_nil s rfl rfl rfl⟩
  | resolve code => cases h; exact ⟨_, emits_fetchGlyph s _⟩
  | romRead a => cases h; exact ⟨_, emits_exchange s a⟩
  | refresh => cases h; exact ⟨_, emits_refresh s⟩
  | rowsel v => cases h; exact ⟨_, emits_emit s [.ledRow v]⟩
  | clrfb | shift | wrslot | blankslot | msg => cases h; exact ⟨[], emits_nil s rfl rfl rfl⟩
  | reserved0000 | reserved1010 | reserved1011 | reserved1100 | reserved1101 | reserved1110 | reserved1111 => cases h

/-- Settles O53: RESET appends nothing, and every other operation acts on the trace, the driver chip and the signals by its
events (`exec_emits`). -/
theorem traceGrowsAndDevicesFollow : Obligations.TraceGrowsAndDevicesFollow := by
  unfold Obligations.TraceGrowsAndDevicesFollow
  intro i s t h
  by_cases hi : ∃ initOk, i = .reset initOk
  · obtain ⟨initOk, rfl⟩ := hi
    exact ⟨[], by simp [exec_reset_trace s initOk t h], fun hne => absurd rfl (hne initOk)⟩
  · obtain ⟨es, htrace, hsink, hpins⟩ := exec_emits s i t h fun initOk he => hi ⟨initOk, he⟩
    exact ⟨es, htrace, fun _ => ⟨hsink, hpins⟩⟩

end Sys2Proof.Machine
end

section
/-! PROOF. What each operation writes: the platform's side, MODE, and the block's own state operation by operation (R8, R14 to
R24, R28). -/

namespace Sys2Proof.Machine

/-- What an operation other than RESET and TICK does to a state: one constructor for each part of the state it may write. -/
inductive OpEffect (s : State) : Instr → State → Prop
  /-- LOAD writes the queue. -/
  | queue (payload : List Byte) : OpEffect s (.load payload)
      { s with q := loadSlots payload s.q, qlen := BitVec.ofNat 8 (payloadCount payload), seq := 0 }
  /-- The four owners of the framebuffer (R14) write it and nothing else. -/
  | framebuffer (i : Instr) (fb : Grid) (hi : i = .shift ∨ i = .wrslot ∨ i = .blankslot ∨ i = .clrfb) :
      OpEffect s i { s with fb := fb }
  /-- RESOLVE writes G after an exchange (R15, R85). -/
  | glyph (code : Code) : OpEffect s (.resolve code) (s.fetchGlyph (glyphAddr s.params code))
  /-- ROM.READ is the exchange alone (R84). -/
  | exchange (a : RomAddr) : OpEffect s (.romRead a) (s.exchange a)
  /-- REFRESH and ROWSEL do nothing but give events (R131, R134). -/
  | events (i : Instr) (es : List Event) (hi : i = .refresh ∨ ∃ v, i = .rowsel v) : OpEffect s i (s.emit es)
  /-- MSG writes the host's messages. -/
  | messages (payload : List Byte) : OpEffect s (.msg payload) { s with inbox := s.inbox ++ [payload] }

variable (s : State)

/-- An operation that answers is a RESET, a TICK, or one with an `OpEffect`. -/
theorem exec_cases (i : Instr) (t : State) (h : exec i s = .next t) :
    (∃ initOk, i = .reset initOk) ∨ (∃ msg, i = .tick msg) ∨ OpEffect s i t := by
  cases i with
  | reset initOk => exact .inl ⟨initOk, rfl⟩
  | tick msg => exact .inr (.inl ⟨msg, rfl⟩)
  | load payload =>
    obtain ⟨-, rfl⟩ := exec_load_cases s payload t h
    exact .inr (.inr (.queue payload))
  | resolve code =>
    obtain rfl := Host.Outcome.next.inj h
    exact .inr (.inr (.glyph code))
  | msg payload =>
    obtain rfl := Host.Outcome.next.inj h
    exact .inr (.inr (.messages payload))
  | clrfb | shift | wrslot | blankslot =>
    obtain rfl := Host.Outcome.next.inj h
    exact .inr (.inr (.framebuffer _ _ (by simp)))
  | romRead a =>
    obtain rfl := Host.Outcome.next.inj h
    exact .inr (.inr (.exchange a))
  | refresh | rowsel =>
    obtain rfl := Host.Outcome.next.inj h
    exact .inr (.inr (.events _ _ (by simp)))
  | reserved0000 | reserved1010 | reserved1011 | reserved1100 | reserved1101 | reserved1110 | reserved1111 => cases h

/-! ### The platform's side and MODE -/

/-- The font ROM's known contents, its presence and the parameters are the same in both states (R6, R28). -/
structure SamePlatform (s t : State) : Prop where
  rom : t.rom = s.rom
  romResponds : t.romResponds = s.romResponds
  params : t.params = s.params

/-- What the ROM answers rests on its contents and presence alone. -/
theorem SamePlatform.romByte {s t : State} (h : SamePlatform s t) (a : RomAddr) : t.romByte a = s.romByte a := by
  simp only [State.romByte, State.romContents, h.rom, h.romResponds]

theorem SamePlatform.platformWf {s t : State} (h : SamePlatform s t) (hs : s.PlatformWf) : t.PlatformWf :=
  ⟨h.rom ▸ hs.rom, h.params ▸ hs.params⟩

theorem OpEffect.samePlatform {s t : State} {i : Instr} (h : OpEffect s i t) : SamePlatform s t := by
  cases h with
  | glyph code => exact ⟨State.fetchGlyph_rom s _, State.fetchGlyph_romResponds s _, State.fetchGlyph_params s _⟩
  | exchange a => exact ⟨State.exchange_rom s a, State.exchange_romResponds s a, State.exchange_params s a⟩
  | queue | framebuffer | events | messages => exact ⟨rfl, rfl, rfl⟩

theorem OpEffect.mode {s t : State} {i : Instr} (h : OpEffect s i t) : t.mode = s.mode := by
  cases h with
  | glyph code => exact State.fetchGlyph_mode s _
  | exchange a => exact State.exchange_mode s a
  | queue | framebuffer | events | messages => rfl

theorem execTick_samePlatform (msg : Option (List Byte)) (t : State) (h : execTick msg s = .next t) :
    SamePlatform s t :=
  have ⟨_, hrom, hresponds, hparams, _⟩ := execTick_keeps s msg t h
  ⟨hrom, hresponds, hparams⟩

theorem exec_samePlatform (i : Instr) (t : State) (h : exec i s = .next t) : SamePlatform s t := by
  rcases exec_cases s i t h with ⟨initOk, rfl⟩ | ⟨msg, rfl⟩ | heff
  · cases h; exact ⟨rfl, rfl, rfl⟩
  · exact execTick_samePlatform s msg t h
  · exact heff.samePlatform

theorem step_samePlatform (t : State) (h : step s = .next t) : SamePlatform s t := by
  rcases step_cases s t h with ⟨-, rfl⟩ | ⟨f, rest, i, -, -, hexec⟩
  · exact ⟨rfl, rfl, rfl⟩
  · obtain ⟨hrom, hresponds, hparams⟩ := exec_samePlatform _ i t hexec
    exact ⟨hrom, hresponds, hparams⟩

/-- Settles O50: a step keeps the ROM's contents, its presence and the parameters (`step_samePlatform`), so every byte the ROM
answers with too. -/
theorem noStepWritesRomOrParameters : Obligations.NoStepWritesRomOrParameters := by
  unfold Obligations.NoStepWritesRomOrParameters
  intro s t h
  have hsame := step_samePlatform s t h
  exact ⟨hsame.romByte, hsame.rom, hsame.romResponds, hsame.params⟩

/-- Settles O51: a TICK and every operation with an `OpEffect` keep MODE, which leaves RESET. -/
theorem onlyResetChangesMode : Obligations.OnlyResetChangesMode := by
  unfold Obligations.OnlyResetChangesMode
  intro i s t h hmode
  rcases exec_cases s i t h with hreset | ⟨msg, rfl⟩ | heff
  · exact hreset
  · obtain ⟨hkept, -⟩ := execTick_keeps s msg t h
    exact absurd hkept hmode
  · exact absurd heff.mode hmode

/-! ### The owners of the block's state -/

/-- Settles O52, by the kinds of `OpEffect`: each writes its own part of the state and keeps the others. -/
theorem onlyOwnersWriteBlockState : Obligations.OnlyOwnersWriteBlockState := by
  unfold Obligations.OnlyOwnersWriteBlockState
  intro i s t h hnoReset hnoTick
  rcases exec_cases s i t h with ⟨initOk, rfl⟩ | ⟨msg, rfl⟩ | heff
  · exact absurd rfl (hnoReset initOk)
  · exact absurd rfl (hnoTick msg)
  cases heff with
  | queue payload => simp
  | framebuffer _ _ howner => simp [howner]
  | glyph code => simp
  | exchange a => simp
  | events => simp
  | messages => simp

end Sys2Proof.Machine
end

section
/-! PROOF. The control state stays in the ranges of R27: through each part of a TICK, and so through every step (R158). -/

namespace Sys2Proof.Machine

variable {s : State}

theorem ofNat_payloadCount_toNat_le (payload : List Byte) : (BitVec.ofNat 8 (payloadCount payload)).toNat ≤ 20 := by
  have := payloadCount_le payload
  rw [BitVec.toNat_ofNat]
  omega

/-- In the given range a counter does not wrap. -/
theorem toNat_add_one {b : BitVec 8} {bound : Nat} (hle : b.toNat ≤ bound) (hbound : bound < 255) :
    (b + 1).toNat = b.toNat + 1 := by
  bv_omega

/-- The ranges speak of five fields. -/
theorem inRange_of_same {t : State} (hs : s.InRange) (htickc : t.tickc = s.tickc) (hmovec : t.movec = s.movec)
    (hblankc : t.blankc = s.blankc) (hqlen : t.qlen = s.qlen) (hseq : t.seq = s.seq) : t.InRange :=
  ⟨htickc ▸ hs.tickc, hmovec ▸ hs.movec, hblankc ▸ hs.blankc, hqlen ▸ hs.qlen, hseq ▸ hqlen ▸ hs.seq⟩

theorem OpEffect.inRange {t : State} {i : Instr} (h : OpEffect s i t) (hs : s.InRange) : t.InRange := by
  cases h with
  | queue payload => exact ⟨hs.tickc, hs.movec, hs.blankc, ofNat_payloadCount_toNat_le payload, Nat.zero_le _⟩
  | glyph | exchange => exact inRange_of_same hs (by simp) (by simp) (by simp) (by simp) (by simp)
  | framebuffer | events | messages => exact inRange_of_same hs rfl rfl rfl rfl rfl

theorem poll_inRange (msg : Option (List Byte)) (hs : s.InRange) : (s.poll msg).2.InRange :=
  inRange_of_same hs (State.poll_tickc s msg) (State.poll_movec s msg) (State.poll_blankc s msg) (State.poll_qlen s msg)
    (State.poll_seq s msg)

theorem messageStep_inRange (m : Option (List Byte)) (t : State) (hs : s.InRange) (h : s.messageStep m = some t) :
    t.InRange := by
  rcases messageStep_cases s m t h with ⟨-, rfl⟩ | ⟨payload, -, -, rfl⟩
  · exact hs
  · exact ⟨Nat.zero_le _, Nat.zero_le _, Nat.zero_le _, ofNat_payloadCount_toNat_le payload, Nat.zero_le _⟩

/-- The scroll cadence takes MOVEC to 16 at most and keeps every other range (R153). -/
theorem cadenceStep_inRange (hs : s.InRange) :
    State.InRange { s.cadenceStep with movec := 0 } ∧ s.cadenceStep.movec.toNat ≤ 16 := by
  obtain ⟨htickc, hmovec, hblankc, hqlen, hseq⟩ := hs
  by_cases ht : s.tickc = 29
  · rw [cadenceStep_shift s ht]
    refine ⟨⟨Nat.zero_le _, Nat.zero_le _, hblankc, hqlen, hseq⟩, ?_⟩
    simp only [toNat_add_one hmovec (by omega)]
    omega
  · rw [cadenceStep_count s ht]
    refine ⟨⟨?_, Nat.zero_le _, hblankc, hqlen, hseq⟩, by simp only; omega⟩
    have : s.tickc.toNat ≠ 29 := fun heq => ht (BitVec.eq_of_toNat_eq heq)
    simp only [toNat_add_one htickc (by omega)]
    omega

/-- A glyph load moves SEQ up to the queue's end at most (R155). -/
theorem glyphLoad_inRange (code : Code) (hs : s.InRange) (hlt : s.seq < s.qlen) : (s.glyphLoad code).InRange := by
  obtain ⟨htickc, hmovec, hblankc, hqlen, hseq⟩ := hs
  have hlt' : s.seq.toNat < s.qlen.toNat := hlt
  have hseq' : (s.seq + 1).toNat ≤ s.qlen.toNat := by
    rw [toNat_add_one (hseq.trans hqlen) (by omega)]
    exact hlt'
  exact ⟨by simpa, by simpa, by simpa, by simpa, by simpa⟩

/-- The fifth blank load takes BLANKC back to 0 (R156). -/
theorem blankLoad_inRange (hs : s.InRange) : s.blankLoad.InRange := by
  obtain ⟨htickc, hmovec, hblankc, hqlen, hseq⟩ := hs
  unfold State.blankLoad
  split
  case isTrue => exact ⟨htickc, hmovec, Nat.zero_le _, hqlen, Nat.zero_le _⟩
  case isFalse hb =>
    refine ⟨htickc, hmovec, ?_, hqlen, hseq⟩
    have : s.blankc.toNat ≠ 4 := fun heq => hb ((blankc_add_one s.blankc).2 (BitVec.eq_of_toNat_eq heq))
    simp only [toNat_add_one hblankc (by omega)]
    omega

/-- The glyph advance takes MOVEC from 16 back to 0, and then loads a glyph or a blank (R154 to R156). -/
theorem advanceStep_inRange (t : State) (hs : State.InRange { s with movec := 0 }) (hmovec : s.movec.toNat ≤ 16)
    (h : s.advanceStep = some t) : t.InRange := by
  rcases advanceStep_cases s t h with ⟨hne, rfl⟩ | ⟨-, hlt, code, -, rfl⟩ | ⟨-, -, rfl⟩
  · obtain ⟨htickc, -, hblankc, hqlen, hseq⟩ := hs
    have : t.movec.toNat ≠ 16 := fun heq => hne (BitVec.eq_of_toNat_eq heq)
    exact ⟨htickc, by omega, hblankc, hqlen, hseq⟩
  · exact glyphLoad_inRange code hs hlt
  · exact blankLoad_inRange hs

theorem refresh_inRange (hs : s.InRange) : s.refresh.InRange := inRange_of_same hs rfl rfl rfl rfl rfl

theorem execTick_inRange (msg : Option (List Byte)) (t : State) (hs : s.InRange) (h : execTick msg s = .next t) :
    t.InRange := by
  rcases execTick_cases s msg t h with ⟨-, rfl⟩ | ⟨-, loaded, advanced, hload, hadvance, rfl⟩
  · exact hs
  · have hloaded := messageStep_inRange _ loaded (poll_inRange msg hs) hload
    obtain ⟨hcadence, hmovec⟩ := cadenceStep_inRange hloaded
    exact refresh_inRange (advanceStep_inRange advanced hcadence hmovec hadvance)

theorem exec_inRange (i : Instr) (t : State) (hs : s.InRange) (h : exec i s = .next t) : t.InRange := by
  rcases exec_cases s i t h with ⟨initOk, rfl⟩ | ⟨msg, rfl⟩ | heff
  · cases h
    exact ⟨Nat.zero_le _, Nat.zero_le _, Nat.zero_le _, Nat.zero_le _, Nat.zero_le _⟩
  · exact execTick_inRange msg t hs h
  · exact heff.inRange hs

theorem step_inRange (t : State) (hs : s.InRange) (h : step s = .next t) : t.InRange := by
  rcases step_cases s t h with ⟨-, rfl⟩ | ⟨f, rest, i, -, -, hexec⟩
  · exact hs
  · refine exec_inRange i t ?_ hexec
    exact inRange_of_same hs rfl rfl rfl rfl rfl

/-- Settles O48: a step keeps the ranges (`step_inRange`), and the platform's data whole (`step_samePlatform`). -/
theorem everyStepKeepsInvariant : Obligations.EveryStepKeepsInvariant := by
  unfold Obligations.EveryStepKeepsInvariant
  intro s t hs h
  exact ⟨step_inRange t hs.range h, (step_samePlatform s t h).platformWf hs.platform⟩

theorem default_params_wf : Params.default.wf := by decide

theorem reset_inRange : State.reset.InRange :=
  ⟨Nat.zero_le _, Nat.zero_le _, Nat.zero_le _, Nat.zero_le _, Nat.zero_le _⟩

/-- Settles O49: the counters are 0, no ROM byte is listed, and the parameters are the defaults. -/
theorem powerUpMeetsInvariant : Obligations.PowerUpMeetsInvariant := by
  unfold Obligations.PowerUpMeetsInvariant
  exact ⟨reset_inRange, reset_rom_wf, default_params_wf⟩

end Sys2Proof.Machine
end

section
/-! PROOF. What a step runs (R10, R184), RESET and the state after power-up (R30, R31), and SHIFT on the row words (R12, R111). -/

namespace Sys2Proof.Machine

variable (s : State)

theorem step_of_decoded (f : Frame) (rest : List Frame) (i : Instr) (hp : s.pending = f :: rest)
    (hd : decode f = .ok i) : step s = exec i { s with pending := rest } := by
  simp only [step, State.takeFrame, hp, hd]

theorem step_of_undecodable (f : Frame) (rest : List Frame) (e : DecodeError) (hp : s.pending = f :: rest)
    (hd : decode f = .error e) : step s = .refused (.undecodable e) := by
  simp only [step, State.takeFrame, hp, hd]

theorem step_of_no_frame (hp : s.pending = []) : step s = .next s := by
  simp only [step, State.takeFrame, hp]

/-- Settles O1: the three cases of a step, by what the host presents. -/
theorem stepRunsPresentedFrame : Obligations.StepRunsPresentedFrame := by
  unfold Obligations.StepRunsPresentedFrame
  exact ⟨step_of_decoded, step_of_undecodable, step_of_no_frame⟩

/-- Settles O7: the state RESET answers (`exec_reset`) names no field of the platform's or the host's side. -/
theorem resetKeepsOutside : Obligations.ResetKeepsOutside := by
  unfold Obligations.ResetKeepsOutside
  intro initOk s
  have hsame := exec_samePlatform s _ _ (exec_reset s initOk)
  exact ⟨_, exec_reset s initOk, hsame.romByte, hsame.rom, hsame.romResponds, hsame.params, rfl, rfl⟩

theorem reset_fb_getElem (r : Fin 16) (c : Fin 12) : State.reset.fb[r][c] = 0 := by simp [State.reset]

theorem reset_g_getElem (i : Fin 32) : State.reset.g[i] = 0 := by simp [State.reset]

/-- Settles O8: State.reset by its fields, and RESET with `init_ok` from it by `exec_reset`. -/
theorem powerUpState : Obligations.PowerUpState := by
  unfold Obligations.PowerUpState
  exact ⟨reset_fb_getElem, reset_g_getElem, rfl, rfl, rfl, rfl, rfl, rfl, _, _, _, exec_reset State.reset true⟩

/-- Settles O18: SHIFT shifts each row (`shiftGrid_getElem`), which doubles its row word (`rowWord_shiftRow`). -/
theorem shiftDoublesRowWord : Obligations.ShiftDoublesRowWord := by
  unfold Obligations.ShiftDoublesRowWord
  intro s
  refine ⟨_, exec_shift s, fun r => ?_⟩
  rw [shiftGrid_getElem, rowWord_shiftRow]

end Sys2Proof.Machine
end

section
/-! PROOF. RESOLVE as a function of the code, the ROM and the parameters (R48, R85); the range of the address rules (R81, R83);
the message a TICK takes (R54, R175). -/

namespace Sys2Proof.Machine

/-! ### An answering ROM answers alike in every state -/

section AnsweringRom

variable {s t : State} (a : RomAddr)

/-- Two states with the same answering ROM sample the same bits. -/
theorem sampled_of_same_rom (hrom : s.rom = t.rom) (hs : s.romResponds = true) (ht : t.romResponds = true) :
    s.sampled a = t.sampled a := by
  funext k
  rw [sampled_responds s a hs, sampled_responds t a ht, State.romContents, State.romContents, hrom]

theorem received_of_same_rom (hrom : s.rom = t.rom) (hs : s.romResponds = true) (ht : t.romResponds = true) :
    s.received a = t.received a := by
  simp only [State.received, sampled_of_same_rom a hrom hs ht]

theorem exchangeEvents_of_same_rom (hrom : s.rom = t.rom) (hs : s.romResponds = true) (ht : t.romResponds = true) :
    s.exchangeEvents a = t.exchangeEvents a := by
  simp only [State.exchangeEvents, State.samples, sampled_of_same_rom a hrom hs ht]

/-- RESOLVE from two states with the same answering ROM and the same parameters. -/
theorem fetchGlyph_of_same_rom (code : Code) (hrom : s.rom = t.rom) (hs : s.romResponds = true)
    (ht : t.romResponds = true) (hparams : s.params = t.params) :
    (s.fetchGlyph (glyphAddr s.params code)).g = (t.fetchGlyph (glyphAddr t.params code)).g ∧
      s.exchangeEvents (glyphAddr s.params code) = t.exchangeEvents (glyphAddr t.params code) := by
  rw [State.fetchGlyph_g, State.fetchGlyph_g, hparams]
  exact ⟨received_of_same_rom _ hrom hs ht, exchangeEvents_of_same_rom _ hrom hs ht⟩

end AnsweringRom

/-- Settles O25, by `fetchGlyph_of_same_rom`: between any two such states, and between a state and the one its RESOLVE leaves,
which has the same ROM and parameters. -/
theorem resolveIsPure : Obligations.ResolveIsPure := by
  unfold Obligations.ResolveIsPure
  constructor
  · intro s s' code hrom hs hs' hparams
    obtain ⟨hg, hes⟩ := fetchGlyph_of_same_rom code hrom hs hs' hparams
    refine ⟨_, _, _, exec_resolve s code, exec_resolve s' code, hg, State.fetchGlyph_trace s _, ?_⟩
    rw [hes, State.fetchGlyph_trace]
  · intro s code hs
    obtain ⟨hrom, hresponds, hparams⟩ := exec_samePlatform s _ _ (exec_resolve s code)
    obtain ⟨hg, hes⟩ := fetchGlyph_of_same_rom code hrom (hresponds.trans hs) hs hparams
    refine ⟨_, _, _, exec_resolve s code, exec_resolve _ code, hg, State.fetchGlyph_trace s _, ?_⟩
    rw [← hes, State.fetchGlyph_trace]

/-! ### The address rules -/

/-- The four region rules of R81, each with the index it gives. -/
theorem getAddress_cases (base : Nat) (code : Code) :
    let msb := (codeMsb code).toNat
    let lsb := (codeLsb code).toNat
    getAddress base code = base ∨
      (0xA1 ≤ msb ∧ msb ≤ 0xA9 ∧ getAddress base code = base + 32 * ((msb - 0xA1) * 94 + (lsb - 0xA1))) ∨
      (0xB0 ≤ msb ∧ msb ≤ 0xF7 ∧ getAddress base code = base + 32 * ((msb - 0xB0) * 94 + (lsb - 0xA1) + 846)) ∨
      getAddress base code = 0 := by
  intro msb lsb
  simp only [getAddress]
  split_ifs with hsymbol hlow hhigh
  · exact .inl rfl
  · obtain ⟨hge, hle, -⟩ := hlow
    exact .inr (.inl ⟨hge, hle, by rw [Nat.mul_comm, Nat.add_comm]⟩)
  · obtain ⟨hge, hle, -⟩ := hhigh
    exact .inr (.inr (.inl ⟨hge, hle, by rw [Nat.mul_comm, Nat.add_comm]⟩))
  · exact .inr (.inr (.inr rfl))

/-- Settles O27, by the rule that gives the address: the index is at most 8*94 + 94 under rule 2 and 71*94 + 94 + 846 under
rule 3. -/
theorem glyphAddressRange : Obligations.GlyphAddressRange := by
  unfold Obligations.GlyphAddressRange
  intro base code
  have hlsb := (codeLsb code).isLt
  rcases getAddress_cases base code with hbase | ⟨-, hmsb, haddr⟩ | ⟨-, hmsb, haddr⟩ | hzero
  · exact .inr ⟨0, by omega, hbase⟩
  · exact .inr ⟨_, by omega, haddr⟩
  · exact .inr ⟨_, by omega, haddr⟩
  · exact .inl hzero

/-! ### The message a TICK takes -/

/-- In mode Idle a tick sees its operand and the messages held out only through the poll. -/
theorem execTick_of_poll_eq {s t : State} (msg given : Option (List Byte)) (hs : s.mode = .idle) (ht : t.mode = .idle)
    (hpoll : s.poll msg = t.poll given) : execTick msg s = execTick given t := by
  simp only [execTick, hs, ht, hpoll]

/-- A tick given a message takes none of those held out, in either mode. -/
theorem execTick_given_inbox (s : State) (payload : List Byte) (t : State) (h : execTick (some payload) s = .next t) :
    t.inbox = s.inbox := by
  rcases execTick_cases s _ t h with ⟨-, rfl⟩ | ⟨-, loaded, advanced, hload, hadvance, rfl⟩
  · rfl
  rw [poll_given] at hload
  obtain ⟨-, -, -, -, -, -, -, hinbox, -, -⟩ := messageStep_keeps s _ loaded hload
  rcases advanceStep_cases _ advanced hadvance with ⟨-, rfl⟩ | ⟨-, -, code, -, rfl⟩ | ⟨-, -, rfl⟩ <;> simp [hinbox]

/-- Settles O39: the poll of a tick given none is the poll of one given the oldest message, with that one gone
(`execTick_of_poll_eq`); a tick given a message leaves the list (`execTick_given_inbox`). -/
theorem tickTakesWaitingMessageOnce : Obligations.TickTakesWaitingMessageOnce := by
  unfold Obligations.TickTakesWaitingMessageOnce
  constructor
  · intro s payload rest hidle hinbox
    refine execTick_of_poll_eq none (some payload) hidle hidle ?_
    rw [poll_waiting s payload rest hinbox, poll_given]
  · exact fun s t payload => execTick_given_inbox s payload t

end Sys2Proof.Machine
end

section
/-! PROOF. Frames and operations: every operation's own frame decodes to it, the frames that stand for none, and the unassigned
select codes (R61 to R64, R66, R68, R70). -/

namespace Sys2Proof.Machine

/-! ### The one-field decoders on what is too wide -/

theorem decodeNibble_of_wide {b : Byte} (h : 16 ≤ b.toNat) : decodeNibble b = .error .fieldTooWide :=
  if_neg (Nat.not_lt.2 h)

theorem decodeFlag_of_wide {b : Byte} (h : 2 ≤ b.toNat) : decodeFlag b = .error .fieldTooWide := by
  have hzero : b ≠ 0 := by bv_omega
  have hone : b ≠ 1 := by bv_omega
  rw [decodeFlag, if_neg hzero, if_neg hone]

/-! ### What a frame decodes to, by its format -/

section FrameBytes

variable (b : Byte) (rest : List Byte)

theorem decode_rowSel_cons : decode ⟨.rowSel, b :: rest⟩ = (decodeNibble b).map .rowsel := rfl

/-- An OP4 frame whose first byte is no select code (R66). -/
theorem decode_op4_of_wide (h : 16 ≤ b.toNat) : decode ⟨.op4, b :: rest⟩ = .error .fieldTooWide := by
  show decodeOp4 (b :: rest) = _
  rw [decodeOp4, decodeNibble_of_wide h]

theorem decode_op4_reset : decode ⟨.op4, 0b0001 :: b :: rest⟩ = (decodeFlag b).map .reset := rfl

theorem decode_op4_tick : decode ⟨.op4, 0b1001 :: b :: rest⟩ =
    (decodeFlag b).map fun present => .tick (if present then some rest else none) := rfl

theorem decode_op4_resolve (msb lsb : Byte) :
    decode ⟨.op4, 0b0101 :: msb :: lsb :: rest⟩ = .ok (.resolve (joinCode msb lsb)) := rfl

theorem decode_romFrame_read (a2 a1 a0 : Byte) :
    decode ⟨.romFrame, readOpcode :: a2 :: a1 :: a0 :: rest⟩ = .ok (.romRead (joinAddr a2 a1 a0)) := rfl

/-- A ROMFRAME of another opcode than the read opcode (R63, R70). -/
theorem decode_romFrame_of_ne (o a2 a1 a0 : Byte) (h : o ≠ readOpcode) :
    decode ⟨.romFrame, o :: a2 :: a1 :: a0 :: rest⟩ = .error .notReadOpcode := if_neg h

end FrameBytes

theorem decode_romFrame_short (bytes : List Byte) (h : bytes.length < 4) :
    decode ⟨.romFrame, bytes⟩ = .error .operandMissing := by
  match bytes, h with
  | [], _ => rfl
  | [_], _ => rfl
  | [_, _], _ => rfl
  | [_, _, _], _ => rfl
  | _ :: _ :: _ :: _ :: _, h => exact absurd h (by simp)

theorem decode_resolve_short (bytes : List Byte) (h : bytes.length < 2) :
    decode ⟨.op4, 0b0101 :: bytes⟩ = .error .operandMissing := by
  match bytes, h with
  | [], _ => rfl
  | [_], _ => rfl
  | _ :: _ :: _, h => exact absurd h (by simp)

/-! ### Every operation's own frame -/

/-- Flags, codes, addresses and row codes come back by the inverses of Laws/Encoding, payloads as they are. -/
theorem decode_encode (i : Instr) : decode (encode i) = .ok i := by
  cases i with
  | reset initOk => exact (decode_op4_reset _ _).trans (by rw [decodeFlag_encodeFlag]; rfl)
  | resolve code => exact (decode_op4_resolve _ _ _).trans (by rw [joinCode_parts])
  | tick msg =>
    cases msg with
    | none => rfl
    | some payload => exact (decode_op4_tick _ _).trans (by rw [decodeFlag_encodeFlag]; rfl)
  | romRead a => exact (decode_romFrame_read _ _ _ _).trans (by rw [joinAddr_parts])
  | rowsel v => exact (decode_rowSel_cons _ _).trans (by rw [decodeNibble_zeroExtend]; rfl)
  | load | msg => rfl
  | clrfb | shift | wrslot | blankslot | refresh => rfl
  | reserved0000 | reserved1010 | reserved1011 | reserved1100 | reserved1101 | reserved1110 | reserved1111 => rfl

/-- Settles O2, by `decode_encode`. -/
theorem decodeOfEncodeIsIdentity : Obligations.DecodeOfEncodeIsIdentity := by
  unfold Obligations.DecodeOfEncodeIsIdentity
  exact decode_encode

/-- Settles O3: each word is the frame of the operation it stands for (`decode_encode`), but for the TICK whose presence byte
says that no message follows. -/
theorem specWordsDecode : Obligations.SpecWordsDecode := by
  unfold Obligations.SpecWordsDecode
  exact ⟨decode_encode .reserved0000, decode_encode (.reset true), decode_encode (.reset false), decode_encode (.load _),
    decode_encode .clrfb, decode_encode .shift, decode_encode (.resolve 0xD6D0), decode_encode .wrslot,
    decode_encode .blankslot, decode_encode .refresh, decode_encode (.tick none), decode_op4_tick 0b0 [],
    decode_encode (.tick (some _)), decode_encode .reserved1010, decode_encode .reserved1011, decode_encode .reserved1100,
    decode_encode .reserved1101, decode_encode .reserved1110, decode_encode .reserved1111, decode_encode (.msg _),
    decode_encode (.romRead 0x122E20), decode_encode (.rowsel 5)⟩

/-- Settles O4, clause by clause: the opcode, the two kinds of field too wide, and the frames that end too soon. -/
theorem foreignFramesRejected : Obligations.ForeignFramesRejected := by
  unfold Obligations.ForeignFramesRejected
  refine ⟨fun o a2 a1 a0 rest h => decode_romFrame_of_ne rest o a2 a1 a0 h,
    fun b rest h => ⟨decode_op4_of_wide b rest h, ?_⟩, fun b rest h => ⟨?_, ?_⟩,
    decode_romFrame_short, decode_resolve_short, rfl, rfl, rfl⟩
  · rw [decode_rowSel_cons, decodeNibble_of_wide h]; rfl
  · rw [decode_op4_reset, decodeFlag_of_wide h]; rfl
  · rw [decode_op4_tick, decodeFlag_of_wide h]; rfl

/-- Settles O5: the arm of each of the seven is the refusal under its code (R68). -/
theorem unassignedCodesRefused : Obligations.UnassignedCodesRefused := by
  unfold Obligations.UnassignedCodesRefused
  exact fun _ => ⟨rfl, rfl, rfl, rfl, rfl, rfl, rfl⟩

end Sys2Proof.Machine
end

section
/-! PROOF. The formats' own steps: what LOAD reads of a payload (R61, R69), the hand-over of a message (R183), the read frame's
exchange (R63, R84), and the row-select code (R64, R134). -/

namespace Sys2Proof.Machine

/-! ### What LOAD reads of a payload -/

section Payload

variable (tag count : Byte) (codes tail : List Byte)

/-- Count and codes in place make a payload readable, whatever the tag and the tail (R69). -/
theorem payloadReadable_of_codes (h : codes.length = 2 * min count.toNat 20) :
    payloadReadable (tag :: count :: codes ++ tail) = true := by
  have hlength : (tag :: count :: codes ++ tail).length = codes.length + tail.length + 2 := by simp
  have hcount : payloadCount (tag :: count :: codes ++ tail) = min count.toNat 20 := rfl
  simp only [payloadReadable, hlength, hcount, Bool.and_eq_true, decide_eq_true_eq]
  omega

theorem payloadCode_of_codes (i : Nat) (h : 2 * i + 1 < codes.length) :
    payloadCode (tag :: count :: codes ++ tail) i = joinCode (codes.getD (2 * i) 0) (codes.getD (2 * i + 1) 0) := by
  have hmsb : 2 + 2 * i = 2 * i + 1 + 1 := by omega
  have hlsb : 3 + 2 * i = 2 * i + 1 + 1 + 1 := by omega
  simp only [payloadCode, hmsb, hlsb, List.cons_append, List.getD_cons_succ]
  rw [List.getD_append _ _ _ _ (by omega), List.getD_append _ _ _ _ h]

/-- The slots a load writes rest on the count and the codes alone. -/
theorem loadSlots_of_codes (tag' : Byte) (tail' : List Byte) (q : Slots) (h : codes.length = 2 * min count.toNat 20) :
    loadSlots (tag :: count :: codes ++ tail) q = loadSlots (tag' :: count :: codes ++ tail') q := by
  have hcode : ∀ i < min count.toNat 20,
      payloadCode (tag :: count :: codes ++ tail) i = payloadCode (tag' :: count :: codes ++ tail') i := fun i hi => by
    rw [payloadCode_of_codes tag count codes tail i (by omega), payloadCode_of_codes tag' count codes tail' i (by omega)]
  exact congrArg Vector.ofFn (funext fun i => ite_congr rfl (hcode i.val) fun _ => rfl)

end Payload

/-- Settles O11: both payloads are readable, their counts are one byte, and they fill the same slots. -/
theorem loadIgnoresTagAndTail : Obligations.LoadIgnoresTagAndTail := by
  unfold Obligations.LoadIgnoresTagAndTail
  intro s tag tag' count codes tail tail' h
  rw [exec_load_readable s _ (payloadReadable_of_codes tag count codes tail h),
    exec_load_readable s _ (payloadReadable_of_codes tag' count codes tail' h),
    loadSlots_of_codes tag count codes tail tag' tail' s.q h]
  rfl

/-- Settles O12: MSG's outcome (`exec_msg`). -/
theorem msgWaitsAtPoll : Obligations.MsgWaitsAtPoll := by
  unfold Obligations.MsgWaitsAtPoll
  exact exec_msg

/-! ### The read frame and the row-select code -/

variable (s : State)

/-- The exchange's events with the read command as a number (R63, R84). -/
theorem exchangeEvents_eq (a : RomAddr) : s.exchangeEvents a =
    .romSel true :: (msbFirst 32 (BitVec.ofNat 32 (0x03000000 + a.toNat))).map .romTx ++ (s.samples a).map .romRx ++
      [.romSel false] := by
  rw [State.exchangeEvents, readFrame_eq_ofNat]

/-- Where the ROM answers, sample `8*i + k` of an exchange is bit `7 - k` of the byte `i` places on, modulo 2^24 (R43, R46). -/
theorem samples_answered (a : RomAddr) (i : Fin 32) (k : Fin 8) (b : Byte)
    (h : s.romByte (BitVec.ofNat 24 (a.toNat + i.val)) = some b) :
    (s.samples a)[8 * i.val + k.val]? = some (b.getLsbD (7 - k.val)) := by
  rw [ofNat_add_index] at h
  rw [samples_getElem? s a _ (by omega), sampled_answered s a i.val k.val k.isLt b h]

/-- Settles O23: ROM.READ is the exchange alone (`exec_romRead`), its samples those of `samples_answered`. -/
theorem romReadExchange : Obligations.RomReadExchange := by
  unfold Obligations.RomReadExchange
  intro s a
  refine ⟨_, s.samples a, exec_romRead s a, samples_length s a, ?_, State.exchange_g s a,
    fun i b h k => samples_answered s a i k b h⟩
  rw [State.exchange_trace, exchangeEvents_eq]

/-- One LED_ROW event: the driver chip's row code and the four row-select lines (R29, R205). -/
theorem emit_ledRow (v : BitVec 4) : s.emit [.ledRow v] = { s with
    trace := s.trace ++ [.ledRow v]
    sink := { s.sink with rsel := v }
    pins := { s.pins with
      ledA0 := v.getLsbD 0, ledA1 := v.getLsbD 1, ledA2 := v.getLsbD 2, ledA3 := v.getLsbD 3 } } := rfl

/-- Settles O35: ROWSEL is one LED_ROW event (`exec_rowsel`), which does this (`emit_ledRow`). -/
theorem rowselDrivesRowLines : Obligations.RowselDrivesRowLines := by
  unfold Obligations.RowselDrivesRowLines
  intro s v
  rw [exec_rowsel, emit_ledRow]

end Sys2Proof.Machine
end

section
/-! PROOF. The font ROM reader: the exchange RESOLVE makes and the glyph it keeps (R81 to R85), what RESOLVE and ROM.READ leave
unchanged (R80, R86), and the signals of the font ROM port after them (R205). -/

namespace Sys2Proof.Machine

variable (s : State) (a : RomAddr)

/-! ### The exchange's samples and the bytes it returns -/

/-- Sample `8*i + k` of an exchange is bit `7 - k` of the byte `i` it returns, whether or not the ROM answers (R43). -/
theorem samples_received (i : Fin 32) (k : Fin 8) :
    (s.samples a)[8 * i.val + k.val]? = some (((s.received a)[i]).getLsbD (7 - k.val)) := by
  rw [samples_getElem? s a _ (by omega), received_getLsbD s a i k.val k.isLt]

/-- The last sample of an exchange is bit 0 of the last byte it returns (R43). -/
theorem received_last_bit : ((s.received a)[31]).getLsbD 0 = s.sampled a 255 :=
  received_getLsbD s a 31 7 (by decide)

/-- Settles O22: RESOLVE is the exchange for the address the region rules give on the two bytes of the code (`codeMsb_toNat`,
`codeLsb_toNat`); its samples are G's bits whatever the ROM does (`samples_received`), and G's bytes the ROM's where it answers
(`received_answered`). -/
theorem resolveFetchesGlyph : Obligations.ResolveFetchesGlyph := by
  unfold Obligations.ResolveFetchesGlyph
  intro s code msb lsb base a
  have haddr : glyphAddr s.params code = a := by
    simp only [glyphAddr, getAddress, codeMsb_toNat, codeLsb_toNat, a, base, msb, lsb]
  have hexec : exec (.resolve code) s = .next (s.fetchGlyph a) := by rw [exec_resolve, haddr]
  refine ⟨s.fetchGlyph a, s.samples a, hexec, samples_length s a, ?_, fun i k => ?_, fun i b hbyte => ?_⟩
  · rw [State.fetchGlyph_trace, State.exchangeEvents, msbFirst_readFrame]
  · rw [State.fetchGlyph_g, samples_received]
  · rw [ofNat_add_index] at hbyte
    rw [State.fetchGlyph_g, received_answered s a i b hbyte]

/-! ### What an exchange leaves unchanged -/

/-- `q` has the eight signals of the LED driver port (R182) at the levels they have in `p`. -/
structure SameLedSignals (p q : Levels) : Prop where
  ledSdi : q.ledSdi = p.ledSdi
  ledClk : q.ledClk = p.ledClk
  ledLe : q.ledLe = p.ledLe
  ledOen : q.ledOen = p.ledOen
  ledA0 : q.ledA0 = p.ledA0
  ledA1 : q.ledA1 = p.ledA1
  ledA2 : q.ledA2 = p.ledA2
  ledA3 : q.ledA3 = p.ledA3

/-- An exchange gives events of the font ROM port alone (R84). -/
theorem mem_exchangeEvents {e : Event} (h : e ∈ s.exchangeEvents a) :
    ∃ b, e = .romSel b ∨ e = .romTx b ∨ e = .romRx b := by
  simp only [State.exchangeEvents, List.cons_append, List.mem_cons, List.mem_append, List.mem_map, List.not_mem_nil,
    or_false] at h
  rcases h with rfl | (⟨b, -, rfl⟩ | ⟨b, -, rfl⟩) | rfl
  · exact ⟨_, .inl rfl⟩
  · exact ⟨b, .inr (.inl rfl)⟩
  · exact ⟨b, .inr (.inr rfl)⟩
  · exact ⟨_, .inl rfl⟩

/-- The cells of the font ROM port set no LED signal (R205). -/
theorem foldl_exchangeEvents_led (p : Levels) : SameLedSignals p ((s.exchangeEvents a).foldl Event.drive p) := by
  refine List.foldlRecOn _ _ ⟨rfl, rfl, rfl, rfl, rfl, rfl, rfl, rfl⟩ fun q hq e he => ?_
  obtain ⟨hsdi, hclk, hle, hoen, h0, h1, h2, h3⟩ := hq
  obtain ⟨b, rfl | rfl | rfl⟩ := mem_exchangeEvents s a he <;> exact ⟨hsdi, hclk, hle, hoen, h0, h1, h2, h3⟩

/-- RESOLVE and ROM.READ are one exchange each, RESOLVE with new bytes in G (R15, R84). -/
theorem exec_exchange (i : Instr) (hi : (∃ code, i = .resolve code) ∨ ∃ a, i = .romRead a) :
    ∃ a g', exec i s = .next { s with
        g := g'
        trace := s.trace ++ s.exchangeEvents a
        pins := (s.exchangeEvents a).foldl Event.drive s.pins
        draws := s.draws + 1 } ∧ ((∃ a, i = .romRead a) → g' = s.g) := by
  rcases hi with ⟨code, rfl⟩ | ⟨a, rfl⟩
  · exact ⟨_, _, by rw [exec_resolve, fetchGlyph_eq], nofun⟩
  · exact ⟨a, s.g, by rw [exec_romRead, exchange_eq], fun _ => rfl⟩

/-- Settles O24: either operation is one exchange (`exec_exchange`), and an exchange leaves the LED signals
(`foldl_exchangeEvents_led`). -/
theorem exchangeFrame : Obligations.ExchangeFrame := by
  unfold Obligations.ExchangeFrame
  intro s i hi
  obtain ⟨a, g', hexec, hg⟩ := exec_exchange s i hi
  obtain ⟨hsdi, hclk, hle, hoen, h0, h1, h2, h3⟩ := foldl_exchangeEvents_led s a s.pins
  exact ⟨g', _, _, _, hexec, hg, hsdi, hclk, hle, hoen, h0, h1, h2, h3⟩

/-! ### The font ROM port's signals after an exchange -/

/-- Where the events between `s` and `t` are one exchange's, they end with the level on ROM_DI and the deselection. -/
theorem Emits.exchange_trace {s t : State} {a : RomAddr} (h : Emits s t (s.exchangeEvents a)) :
    ∃ pre, t.trace = pre ++ [.romRx t.pins.romDi, .romSel false] := by
  obtain ⟨pre, hlast⟩ := exchangeEvents_last s a
  obtain ⟨-, -, -, hdi⟩ := foldl_exchangeEvents_drive s a s.pins
  exact ⟨s.trace ++ pre, by rw [h.trace, h.pins, hdi, hlast, List.append_assoc]⟩

/-- Settles O26: both operations emit one exchange's events (`emits_fetchGlyph`, `emits_exchange`), whose signals are those of
`foldl_exchangeEvents_drive`; the last sample is the last bit of G (`received_last_bit`). -/
theorem exchangeLeavesSignals : Obligations.ExchangeLeavesSignals := by
  unfold Obligations.ExchangeLeavesSignals
  constructor
  · intro s code
    obtain ⟨pre, htrace⟩ := (emits_fetchGlyph s (glyphAddr s.params code)).exchange_trace
    refine ⟨_, pre, exec_resolve s code, htrace, ?_⟩
    rw [State.fetchGlyph_pins, State.fetchGlyph_g, received_last_bit]
    exact foldl_exchangeEvents_drive s _ s.pins
  · intro s a
    obtain ⟨pre, htrace⟩ := (emits_exchange s a).exchange_trace
    obtain ⟨hcs, hclk, hdo, -⟩ := foldl_exchangeEvents_drive s a s.pins
    rw [← State.exchange_pins] at hcs hclk hdo
    exact ⟨_, pre, exec_romRead s a, htrace, hcs, hclk, hdo⟩

end Sys2Proof.Machine
end

section
/-! PROOF. The framebuffer operations CLRFB, WRSLOT and BLANKSLOT cell by cell (R101 to R103), and SHIFT done many times: the
row words (R12, R113), and a glyph on its way from the active slot to columns 2 and 3 (R105). -/

namespace Sys2Proof.Machine

/-! ### The cells of the grids the framebuffer operations write -/

theorem blankGrid_getElem (r : Fin 16) (c : Fin 12) : blankGrid[r][c] = 0 := by simp [blankGrid]

section Slot

variable (row : Row) (b0 b1 : Byte)

theorem setSlot_zero : (setSlot row b0 b1)[0] = b0 := by simp [setSlot]

theorem setSlot_one : (setSlot row b0 b1)[1] = b1 := by simp [setSlot]

/-- The visible columns stay (R101, R104). -/
theorem setSlot_of_two_le (c : Fin 12) (hc : 2 ≤ c.val) : (setSlot row b0 b1)[c] = row[c] := by
  simp only [setSlot, Fin.getElem_fin]
  rw [Vector.getElem_set_ne _ _ (by omega), Vector.getElem_set_ne _ _ (by omega)]

end Slot

theorem writeSlot_getElem (p : Params) (g : Glyph) (fb : Grid) (r : Fin 16) :
    (writeSlot p g fb)[r] = setSlot fb[r] g[p.slotMap[r].1] g[p.slotMap[r].2] := by simp [writeSlot]

theorem blankSlot_getElem (fb : Grid) (r : Fin 16) : (blankSlot fb)[r] = setSlot fb[r] 0 0 := by simp [blankSlot]

/-- An all-zero glyph has the byte 0x00 wherever SLOT_MAP points (R102). -/
theorem writeSlot_of_zero_glyph (p : Params) (g : Glyph) (fb : Grid) (hg : ∀ i : Fin 32, g[i] = 0) :
    writeSlot p g fb = blankSlot fb := by
  simp only [writeSlot, blankSlot, hg]

/-- Settles O13: CLRFB's outcome (`exec_clrfb`) has the blank grid's cells. -/
theorem clrfbClearsEveryCell : Obligations.ClrfbClearsEveryCell := by
  unfold Obligations.ClrfbClearsEveryCell
  exact fun s => ⟨blankGrid, exec_clrfb s, blankGrid_getElem⟩

/-- Settles O14: WRSLOT (`exec_wrslot`) sets the slot of each row (`writeSlot_getElem`) to the two bytes SLOT_MAP names. -/
theorem wrslotWritesActiveSlot : Obligations.WrslotWritesActiveSlot := by
  unfold Obligations.WrslotWritesActiveSlot
  intro s
  refine ⟨_, exec_wrslot s, fun r => ?_⟩
  rw [writeSlot_getElem]
  exact ⟨setSlot_zero _ _ _, setSlot_one _ _ _, setSlot_of_two_le _ _ _⟩

/-- Settles O15: BLANKSLOT (`exec_blankslot`) sets the slot of each row (`blankSlot_getElem`) to 0x00 twice. -/
theorem blankslotClearsActiveSlot : Obligations.BlankslotClearsActiveSlot := by
  unfold Obligations.BlankslotClearsActiveSlot
  intro s
  refine ⟨_, exec_blankslot s, fun r => ?_⟩
  rw [blankSlot_getElem]
  exact ⟨setSlot_zero _ _ _, setSlot_one _ _ _, setSlot_of_two_le _ _ _⟩

/-- Settles O16: the two outcomes write the same grid (`writeSlot_of_zero_glyph`). -/
theorem blankslotIsWrslotOfZeroGlyph : Obligations.BlankslotIsWrslotOfZeroGlyph := by
  unfold Obligations.BlankslotIsWrslotOfZeroGlyph
  intro s hg
  rw [exec_wrslot, exec_blankslot, writeSlot_of_zero_glyph s.params s.g s.fb hg]

/-! ### SHIFT many times -/

/-- SHIFTs one after another shift the grid as often and do nothing else. -/
theorem times_shift (n : Nat) (s : State) : times n .shift s = .next { s with fb := shiftGrid^[n] s.fb } := by
  induction n with
  | zero => rfl
  | succ n ih => rw [times_succ, ih, thenExec_next, exec_shift, Function.iterate_succ_apply']

/-- Rows shift independently (R114). -/
theorem iterate_shiftGrid_getElem (n : Nat) (fb : Grid) (r : Fin 16) :
    (shiftGrid^[n] fb)[r] = shiftRow^[n] fb[r] := by
  induction n with
  | zero => rfl
  | succ n ih => rw [Function.iterate_succ_apply', Function.iterate_succ_apply', shiftGrid_getElem, ih]

theorem rowWord_iterate_shiftRow (n : Nat) (row : Row) :
    (rowWord (shiftRow^[n] row)).toNat = (rowWord row).toNat * 2 ^ n % 2 ^ 96 := by
  induction n with
  | zero => rw [Function.iterate_zero_apply, Nat.pow_zero, Nat.mul_one, Nat.mod_eq_of_lt (rowWord row).isLt]
  | succ n ih => rw [Function.iterate_succ_apply', rowWord_shiftRow, ih, Nat.mod_mul_mod, Nat.mul_assoc, ← Nat.pow_succ]

/-- 96 places up, the whole row word is a multiple of 2^96 and lost. -/
theorem iterate_shiftRow_getElem_eq_zero (n : Nat) (hn : 96 ≤ n) (row : Row) (c : Fin 12) : (shiftRow^[n] row)[c] = 0 := by
  refine row_zero_of_rowWord _ ?_ c.val c.isLt
  rw [rowWord_iterate_shiftRow]
  exact Nat.mod_eq_zero_of_dvd ((Nat.pow_dvd_pow 2 hn).mul_left _)

/-- Settles O20: n SHIFTs shift each row n times (`times_shift`, `iterate_shiftGrid_getElem`), which multiplies its row word by
2^n (`rowWord_iterate_shiftRow`) and, from 96 on, leaves nothing of it (`iterate_shiftRow_getElem_eq_zero`). -/
theorem repeatedShiftMovesRowWord : Obligations.RepeatedShiftMovesRowWord := by
  unfold Obligations.RepeatedShiftMovesRowWord
  intro n s
  refine ⟨_, times_shift n s, fun r => ?_, fun hn r c => ?_⟩
  · rw [iterate_shiftGrid_getElem, rowWord_iterate_shiftRow]
  · rw [iterate_shiftGrid_getElem, iterate_shiftRow_getElem_eq_zero n hn]

/-! ### 16 SHIFTs -/

/-- Bytes two places up in a list of twelve: the number times 2^16, its two top bytes lost. -/
theorem littleEndian_two_up (bs : List Byte) (hbs : bs.length = 12) :
    littleEndian (0 :: 0 :: bs.take 10) = littleEndian bs * 2 ^ 16 % 2 ^ 96 := by
  have htake : (bs.take 10).length = 10 := by rw [List.length_take, hbs]; rfl
  have hlt := littleEndian_lt (bs.take 10)
  have hsplit := littleEndian_append (bs.take 10) (bs.drop 10)
  rw [List.take_append_drop, htake] at hsplit
  rw [htake] at hlt
  have hzero : (0 : Byte).toNat = 0 := rfl
  simp only [littleEndian, hzero, hsplit]
  omega

/-- 16 SHIFTs move a row's bytes two columns up (R105): both rows have the same row word. -/
theorem iterate_shiftRow_sixteen (row : Row) : (shiftRow^[16] row).toList = 0 :: 0 :: row.toList.take 10 := by
  refine littleEndian_inj _ _ (by simp) ?_
  rw [← rowWord_toNat, rowWord_iterate_shiftRow, rowWord_toNat, littleEndian_two_up _ (by simp)]

/-- The cells of a row whose bytes stand two columns up from another's. -/
theorem getElem_of_two_up {row row' : Row} (h : row'.toList = 0 :: 0 :: row.toList.take 10) (j : Nat) (hj : j < 12) :
    row'[j] = if _h : 2 ≤ j then row[j - 2] else 0 := by
  rw [← Vector.getElem_toList (by simpa), List.getElem_of_eq h]
  match j with
  | 0 => rfl
  | 1 => rfl
  | j + 2 => simp

/-- Settles O21: 16 SHIFTs shift each row 16 times (`times_shift`, `iterate_shiftGrid_getElem`), which moves its bytes two
columns up (`iterate_shiftRow_sixteen`), and so its cells (`getElem_of_two_up`). -/
theorem sixteenShiftsMoveOneSlot : Obligations.SixteenShiftsMoveOneSlot := by
  unfold Obligations.SixteenShiftsMoveOneSlot
  intro s
  refine ⟨_, times_shift 16 s, fun r => ?_⟩
  have hcell := getElem_of_two_up (iterate_shiftRow_sixteen s.fb[r])
  rw [iterate_shiftGrid_getElem]
  exact ⟨hcell 0 (by omega), hcell 1 (by omega), fun c => hcell (c.val + 2) (by omega)⟩

end Sys2Proof.Machine
end

section
/-! PROOF. One SHIFT bit by bit (R111), and row by row (R113, R114). -/

namespace Sys2Proof.Machine

theorem carryOut_eq_getLsbD (b : Byte) : carryOut b = b.getLsbD 7 := BitVec.msb_eq_getLsbD_last b

/-- Within a byte each bit comes from one place below (R111). -/
theorem shiftRow_getLsbD_of_pos (row : Row) (j : Fin 12) (k : Fin 8) (hk : 1 ≤ k.val) :
    ((shiftRow row)[j]).getLsbD k = (row[j]).getLsbD (k - 1) := by
  rw [Fin.getElem_fin, shiftRow_getElem row j j.isLt, shiftByte_getLsbD _ _ k k.isLt, if_neg (Nat.ne_of_gt hk),
    Fin.getElem_fin]

/-- Across bytes bit 0 is the carry: bit 7 of the column before, and 0 into column 0 (R111, R112). -/
theorem shiftRow_getLsbD_zero (row : Row) (j : Fin 12) :
    ((shiftRow row)[j]).getLsbD 0 = if _h : 1 ≤ j.val then (row[j.val - 1]'(by omega)).getLsbD 7 else false := by
  rw [Fin.getElem_fin, shiftRow_getElem row j j.isLt, shiftByte_getLsbD _ _ 0 (by omega), if_pos rfl]
  by_cases hj : j.val = 0
  · rw [dif_pos hj, dif_neg (by omega)]
  · rw [dif_neg hj, dif_pos (Nat.one_le_iff_ne_zero.2 hj), carryOut_eq_getLsbD]

/-- Settles O17: SHIFT shifts each row (`shiftGrid_getElem`); in a row, bits 1 to 7 of a column come from the column itself
(`shiftRow_getLsbD_of_pos`) and bit 0 from the column before (`shiftRow_getLsbD_zero`). -/
theorem shiftMovesEveryBitUp : Obligations.ShiftMovesEveryBitUp := by
  unfold Obligations.ShiftMovesEveryBitUp
  intro s
  refine ⟨_, exec_shift s, fun r j => ?_⟩
  rw [shiftGrid_getElem]
  exact ⟨shiftRow_getLsbD_of_pos s.fb[r] j, shiftRow_getLsbD_zero s.fb[r] j⟩

/-- A row after SHIFT is that row shifted (R114). -/
theorem shift_fb_getElem (s t : State) (r : Fin 16) (h : exec .shift s = .next t) : t.fb[r] = shiftRow s.fb[r] := by
  rw [exec_shift] at h
  cases h
  exact shiftGrid_getElem s.fb r

/-- Settles O19: both rows after SHIFT are `shiftRow` of the one row the states agree in (`shift_fb_getElem`). -/
theorem shiftRowsIndependent : Obligations.ShiftRowsIndependent := by
  unfold Obligations.ShiftRowsIndependent
  intro s s' t t' r hrow ht ht'
  rw [shift_fb_getElem s t r ht, shift_fb_getElem s' t' r ht', hrow]

end Sys2Proof.Machine
end

section
/-! PROOF. LOAD slot by slot (R121 to R123), and the payload too short for it, given to LOAD or to TICK (R124, R152). -/

namespace Sys2Proof.Machine

/-! ### The payload too short -/

theorem payloadReadable_eq_false_iff (payload : List Byte) : payloadReadable payload = false ↔
    payload.length < 2 ∨ payload.length < 2 + 2 * min (payload.getD 1 0).toNat 20 := by
  rw [payloadReadable, payloadCount, Bool.and_eq_false_iff, decide_eq_false_iff_not, decide_eq_false_iff_not, Nat.not_le,
    Nat.not_le]

theorem exec_load_short (s : State) (payload : List Byte) (h : payloadReadable payload = false) :
    exec (.load payload) s = .refused .shortPayload := by
  show execLoad payload s = _
  rw [execLoad, loadQueue_short s payload h]

/-- In mode Idle the poll hands the payload a TICK carries to the message step, which refuses it. -/
theorem exec_tick_short (s : State) (payload : List Byte) (hidle : s.mode = .idle) (h : payloadReadable payload = false) :
    exec (.tick (some payload)) s = .refused .shortPayload := by
  simp only [exec_tick, execTick, hidle, poll_given, messageStep_short s payload h]

/-- Settles O10: such a payload is not readable (`payloadReadable_eq_false_iff`), and the tick refuses it (`exec_tick_short`). -/
theorem shortMessageRefused : Obligations.ShortMessageRefused := by
  unfold Obligations.ShortMessageRefused
  exact fun s payload hidle hshort => exec_tick_short s payload hidle ((payloadReadable_eq_false_iff payload).2 hshort)

/-! ### The slots a load writes -/

section Slots

variable (payload : List Byte) (q : Slots) (i : Fin 20)

theorem loadSlots_getElem_of_lt (h : i.val < payloadCount payload) :
    (loadSlots payload q)[i] = payloadCode payload i.val := by
  rw [loadSlots, Fin.getElem_fin, Vector.getElem_ofFn, if_pos h]

theorem loadSlots_getElem_of_le (h : payloadCount payload ≤ i.val) : (loadSlots payload q)[i] = q[i] := by
  rw [loadSlots, Fin.getElem_fin, Vector.getElem_ofFn, if_neg (Nat.not_lt.2 h)]

end Slots

section Payload

variable (tag count : Byte) (tail : List Byte)

/-- A payload with its count byte and the codes it announces is readable (R69). -/
theorem payloadReadable_of_le (h : 2 * min count.toNat 20 ≤ tail.length) :
    payloadReadable (tag :: count :: tail) = true := by
  rw [← Bool.not_eq_false, payloadReadable_eq_false_iff]
  simp only [List.length_cons, List.getD_cons_succ, List.getD_cons_zero]
  omega

/-- Code `i` is the two bytes at `2*i` past tag and count, msb first (R41, R67). -/
theorem payloadCode_toNat (i : Nat) : (payloadCode (tag :: count :: tail) i).toNat =
    (tail.getD (2 * i) 0).toNat * 256 + (tail.getD (2 * i + 1) 0).toNat := by
  have hmsb : 2 + 2 * i = 2 * i + 1 + 1 := by omega
  have hlsb : 3 + 2 * i = 2 * i + 1 + 1 + 1 := by omega
  rw [payloadCode, joinCode_toNat, hmsb, hlsb]
  simp only [List.getD_cons_succ]

end Payload

/-- Settles O9: a payload too short is refused (`exec_load_short`); a readable one loads (`exec_load_readable`), its codes
(`payloadCode_toNat`) into the slots below its count, the others kept (`loadSlots_getElem_of_le`). -/
theorem loadFillsQueue : Obligations.LoadFillsQueue := by
  unfold Obligations.LoadFillsQueue
  refine ⟨fun s payload hshort => exec_load_short s payload ((payloadReadable_eq_false_iff payload).2 hshort),
    fun s tag count tail hcodes => ?_⟩
  refine ⟨_, exec_load_readable s _ (payloadReadable_of_le tag count tail hcodes), fun i => ⟨fun hlt => ?_, ?_⟩⟩
  · rw [loadSlots_getElem_of_lt (tag :: count :: tail) s.q i hlt, payloadCode_toNat]
  · exact loadSlots_getElem_of_le (tag :: count :: tail) s.q i

end Sys2Proof.Machine
end

section
/-! PROOF. The display refresher: the events of a REFRESH and what they depend on (R131, R135), what the matrix shows while they run
and after them (R136), the control order (R133), and the LED driver port's signals (R205); the same for the REFRESH that ends every
TICK in mode Idle (R157). -/

namespace Sys2Proof.Machine

/-! ### The events of a REFRESH -/

section RefreshEvents

variable (p : Params) (fb : Grid) (r : Fin 16) (k : Nat)

theorem refreshEvents_data (hk : k < 80) : (refreshEvents p fb)[84 * r.val + k]? =
    some (.ledTx ((fb[r][2 + k / 8]'(by omega)).getLsbD (7 - k % 8))) := by
  rw [refreshEvents_getElem? p fb r k (by omega), rowEvents_data _ _ k hk, rowData_getElem? _ k hk]

theorem refreshEvents_control (hk : k < 4) : (refreshEvents p fb)[84 * r.val + (80 + k)]? =
    ([.ledOe false, .ledLatch, .ledRow p.rowSelect[r], .ledOe true] : List Event)[k]? := by
  rw [refreshEvents_getElem? p fb r (80 + k) (by omega), rowEvents_control]

end RefreshEvents

/-- Settles O28: the chip and the signals follow the events by the definition of `State.refresh`; the events are read off one by one
by `refreshEvents_data` and `refreshEvents_control`. -/
theorem refreshSendsRows : Obligations.RefreshSendsRows := by
  unfold Obligations.RefreshSendsRows
  intro s
  refine ⟨refreshEvents s.params s.fb, exec_refresh s, refreshEvents_length s.params s.fb, fun r => ?_⟩
  have hcontrol := refreshEvents_control s.params s.fb r
  exact ⟨fun k => refreshEvents_data s.params s.fb r k k.isLt, hcontrol 0 (by omega), hcontrol 1 (by omega),
    hcontrol 2 (by omega), hcontrol 3 (by omega)⟩

theorem rowBytes_of_same_visible {row row' : Row} (h : ∀ c : Fin 12, 2 ≤ c.val → row[c] = row'[c]) :
    rowBytes row = rowBytes row' := by
  apply List.ext_getElem
  · simp [rowBytes]
  · intro i hi _
    have hi' : i < 10 := by simpa [rowBytes] using hi
    simpa [rowBytes] using h ⟨2 + i, by omega⟩ (Nat.le_add_right 2 i)

/-- The events of a REFRESH are a function of ROW_SELECT and columns 2 to 11 (R135). -/
theorem refreshEvents_of_same_visible {p p' : Params} {fb fb' : Grid} (hsel : p.rowSelect = p'.rowSelect)
    (h : ∀ (r : Fin 16) (c : Fin 12), 2 ≤ c.val → fb[r][c] = fb'[r][c]) : refreshEvents p fb = refreshEvents p' fb' := by
  have hrow (r : Fin 16) : rowBytes fb[r] = rowBytes fb'[r] := rowBytes_of_same_visible (h r)
  simp only [refreshEvents, rowEvents, hsel, hrow]

/-- Settles O29, by `refreshEvents_of_same_visible`; a REFRESH writes neither the framebuffer nor the parameters, so the second one
gives the events of the first. -/
theorem refreshDependsOnVisibleColumns : Obligations.RefreshDependsOnVisibleColumns := by
  unfold Obligations.RefreshDependsOnVisibleColumns
  constructor
  · intro s s' hsel hvisible
    have hevents := refreshEvents_of_same_visible hsel hvisible
    exact ⟨s.refresh, s'.refresh, refreshEvents s.params s.fb, exec_refresh s, exec_refresh s', State.refresh_trace s,
      hevents ▸ State.refresh_trace s'⟩
  · intro s
    exact ⟨s.refresh, s.refresh.refresh, refreshEvents s.params s.fb, exec_refresh s, exec_refresh s.refresh,
      State.refresh_trace s, State.refresh_trace s.refresh⟩

/-! ### What the matrix shows in the course of a REFRESH -/

section RowPrefix

variable (code : BitVec 4) (row : Row) (k : Sink) (n : Nat)

/-- Up to the end of its data phase a row's events leave what is shown alone: they move the shift stage only. -/
theorem shown_foldl_rowEvents_data (hn : n ≤ 80) :
    (((rowEvents code row).take n).foldl Sink.apply k).shown = k.shown := by
  rw [rowEvents_eq, List.take_append_of_le_length (by rwa [rowData_length]), foldl_rowData_take]
  rfl

/-- From a row's disable to its enable nothing is shown (R133). -/
theorem shown_foldl_rowEvents_control (hn : n ≤ 2) :
    (((rowEvents code row).take (81 + n)).foldl Sink.apply k).shown = none := by
  have htake : (rowEvents code row).take (81 + n) =
      rowData row ++ .ledOe false :: ([.ledLatch, .ledRow code] : List Event).take n := by
    rw [rowEvents_eq, List.take_append, rowData_length, List.take_of_length_le (by rw [rowData_length]; omega)]
    interval_cases n <;> rfl
  rw [htake, List.foldl_append]
  interval_cases n <;> rfl

end RowPrefix

section RefreshPrefix

variable (p : Params) (fb : Grid) (r : Fin 16) (k : Sink) (n : Nat)

/-- After row `r`'s control phase row `r` is shown for as long as the next row's data phase lasts (R136). -/
theorem shown_foldl_refreshEvents_after_row (hn : n ≤ 80) :
    (((refreshEvents p fb).take (84 * (r.val + 1) + n)).foldl Sink.apply k).shown =
      some (p.rowSelect[r], visibleWord fb[r]) := by
  rw [refreshEvents_take p fb _ n (by omega), List.foldl_append, foldl_rows_take]
  cases (List.finRange 16)[r.val + 1]? with
  | none => simp [Sink.shown]
  | some below => exact shown_foldl_rowEvents_data _ _ _ n hn

/-- In row `r`'s control phase, before its enable, nothing is shown (R133, R136). -/
theorem shown_foldl_refreshEvents_in_control (hn : n ≤ 2) :
    (((refreshEvents p fb).take (84 * r.val + 81 + n)).foldl Sink.apply k).shown = none := by
  have hrow : (List.finRange 16)[r.val]? = some r := by simp
  rw [Nat.add_assoc, refreshEvents_take p fb _ _ (by omega), List.foldl_append, hrow]
  exact shown_foldl_rowEvents_control _ _ _ n hn

end RefreshPrefix

/-- Settles O30: an `n` of either range is the row's start and an offset, and `shown_foldl_refreshEvents_after_row` and
`shown_foldl_refreshEvents_in_control` say what is shown there. -/
theorem refreshShowsEachRow : Obligations.RefreshShowsEachRow := by
  unfold Obligations.RefreshShowsEachRow
  intro s
  refine ⟨s.refresh, refreshEvents s.params s.fb, exec_refresh s, State.refresh_trace s, ?_, ?_⟩
  · intro r n hle hge
    obtain ⟨j, rfl⟩ := Nat.exists_eq_add_of_le hle
    exact shown_foldl_refreshEvents_after_row s.params s.fb r s.sink j (by omega)
  · intro r n hle hge
    obtain ⟨j, rfl⟩ := Nat.exists_eq_add_of_le hle
    exact shown_foldl_refreshEvents_in_control s.params s.fb r s.sink j (by omega)

/-! ### The control order -/

/-- A TICK gives no event, or those of a REFRESH after at most one exchange, which itself neither latches nor selects a row: so it
keeps the control order (R133). -/
theorem execTick_quietSelect (s t : State) (msg : Option (List Byte)) (h : execTick msg s = .next t) :
    ∃ es, t.trace = s.trace ++ es ∧ ∀ enabled, quietSelect enabled es = true := by
  rcases execTick_events s msg t h with ⟨-, rfl⟩ | ⟨-, pre, hpre, htrace, -, -⟩
  · exact ⟨[], (List.append_nil _).symm, fun _ => rfl⟩
  · refine ⟨_, htrace, fun enabled => ?_⟩
    rcases hpre with rfl | ⟨u, a, rfl⟩
    · exact quietSelect_refreshEvents _ _ enabled
    · rw [quietSelect_exchangeEvents]
      exact quietSelect_refreshEvents _ _ enabled

/-- Settles O31, by `quietSelect_refreshEvents` for REFRESH and `execTick_quietSelect` for TICK. -/
theorem latchAndSelectOnlyWhileDisabled : Obligations.LatchAndSelectOnlyWhileDisabled := by
  unfold Obligations.LatchAndSelectOnlyWhileDisabled
  intro s t i hi h
  rcases hi with rfl | ⟨msg, rfl⟩
  · obtain rfl := Host.Outcome.next.inj h
    exact ⟨_, State.refresh_trace s, quietSelect_refreshEvents s.params s.fb⟩
  · exact execTick_quietSelect s t msg h

/-! ### After a REFRESH, and after every TICK in mode Idle -/

/-- The LED signals a REFRESH leaves are those of row 15 of the framebuffer it leaves. -/
theorem refresh_rowSignals (s : State) : RowSignals s.refresh.pins s.refresh.params.rowSelect[15] s.refresh.fb[15] := by
  rw [State.refresh_pins]
  exact foldl_refreshEvents_drive s.params s.fb s.pins

/-- After a REFRESH the matrix shows row 15 of the framebuffer it leaves. -/
theorem refresh_shown (s : State) :
    s.refresh.sink.shown = some (s.refresh.params.rowSelect[15], visibleWord s.refresh.fb[15]) := by
  rw [State.refresh_sink, foldl_refreshEvents]
  rfl

/-- A TICK in mode Idle that answers ends in a REFRESH (R157). -/
theorem exec_tick_idle_ends_in_refresh (s t : State) (msg : Option (List Byte)) (hidle : s.mode = .idle)
    (h : exec (.tick msg) s = .next t) : ∃ u : State, t = u.refresh := by
  rcases execTick_cases s msg t h with ⟨herror, -⟩ | ⟨-, -, u, -, -, rfl⟩
  · simp [hidle] at herror
  · exact ⟨u, rfl⟩

/-- Settles O34, by `refresh_rowSignals`: a TICK in mode Idle ends in a REFRESH. -/
theorem refreshLeavesSignals : Obligations.RefreshLeavesSignals := by
  unfold Obligations.RefreshLeavesSignals
  constructor
  · exact fun s => ⟨s.refresh, exec_refresh s, refresh_rowSignals s⟩
  · intro s t msg hidle h
    obtain ⟨u, rfl⟩ := exec_tick_idle_ends_in_refresh s t msg hidle h
    exact refresh_rowSignals u

/-- Settles O44, by `refresh_shown`: a TICK in mode Idle ends in a REFRESH. -/
theorem idleTickEndsShowingLastRow : Obligations.IdleTickEndsShowingLastRow := by
  unfold Obligations.IdleTickEndsShowingLastRow
  intro s t msg hidle h
  obtain ⟨u, rfl⟩ := exec_tick_idle_ends_in_refresh s t msg hidle h
  exact refresh_shown u

end Sys2Proof.Machine
end

section
/-! PROOF. The display task: RESET's values (R30, R150), and TICK branch by branch (R151 to R160). -/

namespace Sys2Proof.Machine

/-! ### RESET, and TICK in mode Error -/

theorem emptyGlyph_getElem (i : Fin 32) : emptyGlyph[i] = 0 := by simp [emptyGlyph]

/-- Settles O6: the state RESET answers (`exec_reset`) has the blank grid, the empty glyph and the counters at 0. -/
theorem resetSetsBlockState : Obligations.ResetSetsBlockState := by
  unfold Obligations.ResetSetsBlockState
  exact fun initOk s => ⟨_, exec_reset s initOk, blankGrid_getElem, emptyGlyph_getElem, rfl, rfl, rfl, rfl, rfl, rfl, rfl⟩

/-- Settles O36: in mode Error a TICK answers the state it found (`execTick_error`). -/
theorem tickInErrorDoesNothing : Obligations.TickInErrorDoesNothing := by
  unfold Obligations.TickInErrorDoesNothing
  exact execTick_error

/-! ### What the glyph advance reads and leaves -/

theorem movec_add_one (b : BitVec 8) : b + 1 = 16 ↔ b = 15 := by
  revert b; decide

/-- A blank load in one equation: the fifth takes BLANKC and SEQ to 0 (R156). -/
theorem blankLoad_eq (s : State) : s.blankLoad = { s with
    fb := blankSlot s.fb
    blankc := if s.blankc = 4 then 0 else s.blankc + 1
    seq := if s.blankc = 4 then 0 else s.seq } := by
  simp only [State.blankLoad, blankc_add_one]
  split <;> rfl

/-- Steps 2 and 3 of a TICK that only count it. -/
theorem cadence_advance_count (s : State) (htickc : s.tickc ≠ 29) (hmovec : s.movec ≠ 16) :
    s.cadenceStep.advanceStep = some { s with tickc := s.tickc + 1 } := by
  rw [cadenceStep_count s htickc]
  exact advanceStep_skip _ hmovec

/-! ### The branches of a TICK in mode Idle -/

/-- A TICK with a complete message is the first tick of that message: no SHIFT, no advance (R152). -/
theorem exec_tick_message (s : State) (payload : List Byte) (hidle : s.mode = .idle)
    (hread : payloadReadable payload = true) :
    exec (.tick (some payload)) s = exec .refresh { s with
      fb := blankGrid, q := loadSlots payload s.q, qlen := BitVec.ofNat 8 (payloadCount payload)
      tickc := 1, movec := 0, seq := 0, blankc := 0 } := by
  exact execTick_next s (some payload) _ _ hidle (messageStep_readable s payload hread)
    (cadence_advance_count _ (show (0 : BitVec 8) ≠ 29 by decide) (show (0 : BitVec 8) ≠ 16 by decide))

section NoMessage

variable (s : State) (hidle : s.mode = .idle) (hinbox : s.inbox = [])
include hidle hinbox

theorem exec_tick_count (htickc : s.tickc ≠ 29) (hmovec : s.movec ≠ 16) :
    exec (.tick none) s = exec .refresh { s with tickc := s.tickc + 1 } := by
  exact execTick_none s _ hidle hinbox (cadence_advance_count s htickc hmovec)

theorem exec_tick_shift (htickc : s.tickc = 29) (hmovec : s.movec ≠ 15) :
    exec (.tick none) s = exec .refresh { s with fb := shiftGrid s.fb, tickc := 0, movec := s.movec + 1 } := by
  refine execTick_none s _ hidle hinbox ?_
  rw [cadenceStep_shift s htickc]
  exact advanceStep_skip _ ((movec_add_one s.movec).not.2 hmovec)

theorem exec_tick_glyph (code : Code) (htickc : s.tickc = 29) (hmovec : s.movec = 15) (hlt : s.seq < s.qlen)
    (hcode : s.q[s.seq.toNat]? = some code) :
    exec (.tick none) s =
      exec .refresh (State.glyphLoad { s with fb := shiftGrid s.fb, tickc := 0, movec := 0 } code) := by
  refine execTick_none s _ hidle hinbox ?_
  rw [cadenceStep_shift s htickc]
  exact advanceStep_glyph _ code ((movec_add_one s.movec).2 hmovec) hlt hcode

theorem exec_tick_blank (htickc : s.tickc = 29) (hmovec : s.movec = 15) (hge : ¬ s.seq < s.qlen) :
    exec (.tick none) s = exec .refresh (State.blankLoad { s with fb := shiftGrid s.fb, tickc := 0, movec := 0 }) := by
  refine execTick_none s _ hidle hinbox ?_
  rw [cadenceStep_shift s htickc]
  exact advanceStep_blank _ ((movec_add_one s.movec).2 hmovec) hge

end NoMessage

/-- Settles O38: CLRFB (`exec_clrfb`) and LOAD (`exec_load_readable`) write what the tick's message step does
(`exec_tick_message`). -/
theorem messageTick : Obligations.MessageTick := by
  unfold Obligations.MessageTick
  intro s payload hidle hread
  exact ⟨_, exec_load_readable { s with fb := blankGrid } payload hread, exec_tick_message s payload hidle hread⟩

/-- Settles O40, by `exec_tick_count`. -/
theorem plainTick : Obligations.PlainTick := by
  unfold Obligations.PlainTick
  exact exec_tick_count

/-- Settles O41: SHIFT's outcome (`exec_shift`) is what the 30th tick counts (`exec_tick_shift`). -/
theorem thirtiethTickShifts : Obligations.ThirtiethTickShifts := by
  unfold Obligations.ThirtiethTickShifts
  exact fun s hidle hinbox htickc hmovec => ⟨_, exec_shift s, exec_tick_shift s hidle hinbox htickc hmovec⟩

/-- Settles O42: the glyph load of the tick (`exec_tick_glyph`) is RESOLVE and WRSLOT one after the other, and SEQ one up. -/
theorem glyphAdvanceTick : Obligations.GlyphAdvanceTick := by
  unfold Obligations.GlyphAdvanceTick
  intro s code hidle hinbox htickc hmovec hlt hcode
  refine ⟨_, _, _, exec_shift s, exec_resolve _ code, exec_wrslot _, ?_⟩
  rw [exec_tick_glyph s hidle hinbox code htickc hmovec hlt hcode]
  simp only [State.glyphLoad, State.fetchGlyph_seq]

/-- Settles O43: the blank load of the tick (`exec_tick_blank`) is BLANKSLOT and the count of BLANKC (`blankLoad_eq`). -/
theorem blankAdvanceTick : Obligations.BlankAdvanceTick := by
  unfold Obligations.BlankAdvanceTick
  intro s hidle hinbox htickc hmovec hseq
  refine ⟨_, _, exec_shift s, exec_blankslot _, ?_⟩
  rw [exec_tick_blank s hidle hinbox htickc hmovec (by simp [hseq]), blankLoad_eq]

end Sys2Proof.Machine
end

section
/-! PROOF. A TICK in mode Idle and in range completes, and the events it gives (R151, R160). -/

namespace Sys2Proof.Machine

/-- Where every polled message is complete, the message step answers (R124, R152). -/
theorem messageStep_answers (s : State) (m : Option (List Byte))
    (hread : ∀ payload, m = some payload → payloadReadable payload = true) : ∃ t, s.messageStep m = some t := by
  cases m with
  | none => exact ⟨s, rfl⟩
  | some payload => exact ⟨_, messageStep_readable s payload (hread payload rfl)⟩

/-- The count of SHIFTs reaches 16 on the 30th tick after the 15th SHIFT (R153, R154). -/
theorem cadenceStep_movec_eq_sixteen_iff (s : State) (hmovec : s.movec ≠ 16) :
    s.cadenceStep.movec = 16 ↔ s.tickc = 29 ∧ s.movec = 15 := by
  by_cases htickc : s.tickc = 29
  · rw [cadenceStep_shift s htickc, movec_add_one, and_iff_right htickc]
  · rw [cadenceStep_count s htickc, iff_false_intro hmovec, false_iff, not_and]
    exact fun heq => absurd heq htickc

/-- The glyph advance gives the events of one exchange where it resolves a glyph, and else none (R84, R155, R156). -/
theorem advanceStep_events (s t : State) (h : s.advanceStep = some t) :
    ∃ es, t.trace = s.trace ++ es ∧ es.length = if s.movec = 16 ∧ s.seq < s.qlen then 290 else 0 := by
  rcases advanceStep_cases s t h with ⟨hne, rfl⟩ | ⟨heq, hlt, code, -, rfl⟩ | ⟨-, hge, rfl⟩
  · exact ⟨[], by simp, by rw [if_neg fun h => hne h.1, List.length_nil]⟩
  · exact ⟨_, State.glyphLoad_trace _ code, by rw [if_pos ⟨heq, hlt⟩, exchangeEvents_length]⟩
  · exact ⟨[], by simp, by rw [if_neg fun h => hge h.2, List.length_nil]⟩

/-- After the message step the tick is one of a glyph advance only where there was no message (R152). -/
theorem messageStep_advance_iff (s t : State) (m : Option (List Byte)) (h : s.messageStep m = some t) :
    (t.tickc = 29 ∧ t.movec = 15) ∧ t.seq < t.qlen ↔ m = none ∧ s.tickc = 29 ∧ s.movec = 15 ∧ s.seq < s.qlen := by
  rcases messageStep_cases s m t h with ⟨rfl, rfl⟩ | ⟨payload, rfl, -, rfl⟩
  · simp [and_assoc]
  · simp

/-- Settles O37: in range each step of the tick answers (`messageStep_answers`, `advanceStep_answers`); the glyph advance gives the
290 events of an exchange or none (`advanceStep_events`), the REFRESH 1344. -/
theorem idleTickCompletes : Obligations.IdleTickCompletes := by
  unfold Obligations.IdleTickCompletes
  intro s msg hidle hrange hread
  obtain ⟨loaded, hload⟩ := messageStep_answers (s.poll msg).2 _ hread
  have hloaded : loaded.InRange := messageStep_inRange _ loaded (poll_inRange msg hrange) hload
  have hmovec : loaded.movec ≠ 16 := fun heq => absurd hloaded.movec (by simp [heq])
  obtain ⟨advanced, hadvance⟩ := advanceStep_answers loaded.cadenceStep (by simpa using hloaded.qlen)
  obtain ⟨es, htrace, hlength⟩ := advanceStep_events _ advanced hadvance
  obtain ⟨-, -, -, -, hkept, -⟩ := messageStep_keeps _ _ loaded hload
  refine ⟨advanced.refresh, es ++ refreshEvents advanced.params advanced.fb,
    execTick_next s msg loaded advanced hidle hload hadvance, by simp [htrace, hkept], ?_⟩
  have hwhen := messageStep_advance_iff _ loaded _ hload
  simp only [State.poll_tickc, State.poll_movec, State.poll_seq, State.poll_qlen] at hwhen
  simp only [cadenceStep_movec_eq_sixteen_iff loaded hmovec, State.cadenceStep_seq, State.cadenceStep_qlen, hwhen] at hlength
  rw [List.length_append, refreshEvents_length, hlength, ite_add]

end Sys2Proof.Machine
end

section
/-! PROOF. TICKs one after another with no message: one SHIFT every 30, one glyph advance every 480, and the whole message every
480 * (QLEN + 5) (R153 to R156, R161). -/

namespace Sys2Proof.Machine

/-! ### 30 TICKs: one SHIFT -/

section NoMessage

variable (s : State) (hidle : s.mode = .idle) (hinbox : s.inbox = []) (htickc : s.tickc = 0)
include hidle hinbox htickc

/-- 29 plain ticks and one that shifts. -/
theorem times_thirtyTicks (hmovec : s.movec.toNat < 15) : ∃ tr k p, times 30 (.tick none) s =
    .next { s with fb := shiftGrid s.fb, movec := s.movec + 1, trace := tr, sink := k, pins := p } := by
  obtain ⟨tr, k, p, hplain⟩ := times_plainTicks 29 le_rfl s hidle hinbox htickc (by bv_omega)
  have hshift := exec_tick_shift { s with tickc := 29, trace := tr, sink := k, pins := p } hidle hinbox rfl (by bv_omega)
  rw [exec_refresh, ← htickc] at hshift
  exact ⟨_, _, _, (times_add 29 1 _ _ _ hplain).trans hshift⟩

/-- From fresh counts, up to 15 SHIFTs, each on the last of 30 ticks. -/
theorem times_scroll (n : Nat) (hn : n ≤ 15) (hmovec : s.movec = 0) : ∃ tr k p, times (30 * n) (.tick none) s = .next { s with
    fb := shiftGrid^[n] s.fb, movec := BitVec.ofNat 8 n, trace := tr, sink := k, pins := p } := by
  induction n with
  | zero => exact ⟨s.trace, s.sink, s.pins, by rw [show BitVec.ofNat 8 0 = s.movec from hmovec.symm]; rfl⟩
  | succ n ih =>
    obtain ⟨tr, k, p, hscroll⟩ := ih (by omega)
    obtain ⟨tr', k', p', hnext⟩ := times_thirtyTicks
      { s with fb := shiftGrid^[n] s.fb, movec := BitVec.ofNat 8 n, trace := tr, sink := k, pins := p } hidle hinbox htickc
      (by simp only [BitVec.toNat_ofNat]; omega)
    refine ⟨tr', k', p', ?_⟩
    rw [Nat.mul_succ, times_add _ _ _ _ _ hscroll, hnext, BitVec.ofNat_add, Function.iterate_succ_apply']
    rfl

/-- From fresh counts, the tick of the glyph advance is the 480th (R161). -/
theorem times_upToAdvance (hmovec : s.movec = 0) : ∃ tr k p, times 479 (.tick none) s = .next { s with
    fb := shiftGrid^[15] s.fb, tickc := 29, movec := 15, trace := tr, sink := k, pins := p } := by
  obtain ⟨tr, k, p, hscroll⟩ := times_scroll s hidle hinbox htickc 15 le_rfl hmovec
  obtain ⟨tr', k', p', hplain⟩ := times_plainTicks 29 le_rfl
    { s with fb := shiftGrid^[15] s.fb, movec := 15, trace := tr, sink := k, pins := p } hidle hinbox htickc
    (show (15 : BitVec 8) ≠ 16 by decide)
  exact ⟨tr', k', p', (times_add (30 * 15) 29 _ _ _ hscroll).trans hplain⟩

end NoMessage

/-- Settles O45: SHIFT (`exec_shift`) and 30 ticks (`times_thirtyTicks`) write the same grid. -/
theorem thirtyTicksShiftOnce : Obligations.ThirtyTicksShiftOnce := by
  unfold Obligations.ThirtyTicksShiftOnce
  intro s hidle hinbox htickc hmovec
  obtain ⟨tr, k, p, h⟩ := times_thirtyTicks s hidle hinbox htickc hmovec
  exact ⟨_, tr, k, p, exec_shift s, h⟩

/-! ### 480 TICKs: one glyph advance -/

/-- What one glyph advance makes of the control state and the queue, from fresh counts to fresh counts (R154 to R156). -/
structure AfterAdvance (s t : State) : Prop where
  tickc : t.tickc = 0
  movec : t.movec = 0
  qlen : t.qlen = s.qlen
  q : t.q = s.q
  mode : t.mode = s.mode
  inbox : t.inbox = s.inbox
  glyph : s.seq < s.qlen → t.seq = s.seq + 1 ∧ t.blankc = s.blankc
  blank : ¬ s.seq < s.qlen → s.blankc ≠ 4 → t.seq = s.seq ∧ t.blankc = s.blankc + 1
  restart : ¬ s.seq < s.qlen → s.blankc = 4 → t.seq = 0 ∧ t.blankc = 0

/-- A REFRESH changes none of it. -/
theorem AfterAdvance.refresh {s t : State} (h : AfterAdvance s t) : AfterAdvance s t.refresh := { h with }

/-- The tick of the 16th SHIFT makes a glyph advance. -/
theorem exec_tick_afterAdvance (s : State) (hidle : s.mode = .idle) (hinbox : s.inbox = []) (hqlen : s.qlen.toNat ≤ 20)
    (htickc : s.tickc = 29) (hmovec : s.movec = 15) : ∃ t, exec (.tick none) s = .next t ∧ AfterAdvance s t := by
  by_cases hlt : s.seq < s.qlen
  · obtain ⟨code, hcode⟩ := nextCode_of_range s hqlen hlt
    refine ⟨_, exec_tick_glyph s hidle hinbox code htickc hmovec hlt hcode, AfterAdvance.refresh ?_⟩
    refine ⟨?_, ?_, ?_, ?_, ?_, ?_, fun _ => ?_, fun hge => absurd hlt hge, fun hge => absurd hlt hge⟩ <;> simp
  · refine ⟨_, exec_tick_blank s hidle hinbox htickc hmovec hlt, AfterAdvance.refresh ?_⟩
    rw [blankLoad_eq]
    exact ⟨rfl, rfl, rfl, rfl, rfl, rfl, fun h => absurd h hlt, fun _ hne => ⟨if_neg hne, if_neg hne⟩,
      fun _ heq => ⟨if_pos heq, if_pos heq⟩⟩

theorem times_advance (s : State) (hidle : s.mode = .idle) (hinbox : s.inbox = []) (hqlen : s.qlen.toNat ≤ 20)
    (htickc : s.tickc = 0) (hmovec : s.movec = 0) : ∃ t, times 480 (.tick none) s = .next t ∧ AfterAdvance s t := by
  obtain ⟨tr, k, p, h⟩ := times_upToAdvance s hidle hinbox htickc hmovec
  obtain ⟨t, ht, hafter⟩ := exec_tick_afterAdvance
    { s with fb := shiftGrid^[15] s.fb, tickc := 29, movec := 15, trace := tr, sink := k, pins := p } hidle hinbox hqlen rfl rfl
  exact ⟨t, (times_add 479 1 _ _ _ h).trans ht, { hafter with }⟩

/-- Settles O46, by `times_advance`. -/
theorem glyphAdvanceEvery480Ticks : Obligations.GlyphAdvanceEvery480Ticks := by
  unfold Obligations.GlyphAdvanceEvery480Ticks
  intro s hidle hinbox hrange htickc hmovec
  obtain ⟨t, h, hafter⟩ := times_advance s hidle hinbox hrange.qlen htickc hmovec
  have hge (hseq : s.seq = s.qlen) : ¬ s.seq < s.qlen := by simp [hseq]
  exact ⟨t, h, hafter.tickc, hafter.movec, hafter.qlen, hafter.q, hafter.mode.trans hidle, hafter.inbox.trans hinbox,
    hafter.glyph, fun hseq => hafter.blank (hge hseq), fun hseq => hafter.restart (hge hseq)⟩

/-! ### 480 * (QLEN + 5) TICKs: the whole message -/

/-- `t` stands `n` advances after the start of the message in `s`: QLEN glyphs first, then blanks (R155, R156). -/
structure AtAdvance (s : State) (n : Nat) (t : State) : Prop where
  tickc : t.tickc = 0
  movec : t.movec = 0
  qlen : t.qlen = s.qlen
  q : t.q = s.q
  mode : t.mode = .idle
  inbox : t.inbox = []
  seq : t.seq.toNat = min n s.qlen.toNat
  blankc : t.blankc.toNat = n - s.qlen.toNat

section Message

variable {s t u : State} {n : Nat}

theorem AtAdvance.seq_lt_iff (h : AtAdvance s n t) : t.seq < t.qlen ↔ n < s.qlen.toNat := by
  rw [BitVec.lt_def, h.seq, h.qlen]
  omega

theorem AtAdvance.blankc_eq_four_iff (h : AtAdvance s n t) : t.blankc = 4 ↔ n = s.qlen.toNat + 4 := by
  rw [← BitVec.toNat_inj, h.blankc]
  change n - s.qlen.toNat = 4 ↔ _
  omega

/-- Before the fifth blank, one advance is one place further. -/
theorem AtAdvance.succ (h : AtAdvance s n t) (hn : n < s.qlen.toNat + 4) (hqlen : s.qlen.toNat ≤ 20)
    (hafter : AfterAdvance t u) : AtAdvance s (n + 1) u := by
  suffices hplace : u.seq.toNat = min (n + 1) s.qlen.toNat ∧ u.blankc.toNat = n + 1 - s.qlen.toNat from
    ⟨hafter.tickc, hafter.movec, hafter.qlen.trans h.qlen, hafter.q.trans h.q, hafter.mode.trans h.mode,
      hafter.inbox.trans h.inbox, hplace.1, hplace.2⟩
  have hseq := h.seq
  have hblankc := h.blankc
  by_cases hlt : n < s.qlen.toNat
  · obtain ⟨hseq', hblankc'⟩ := hafter.glyph (h.seq_lt_iff.2 hlt)
    rw [hseq', hblankc', toNat_add_one (bound := 20) (by omega) (by omega)]
    omega
  · obtain ⟨hseq', hblankc'⟩ := hafter.blank (h.seq_lt_iff.not.2 hlt) (h.blankc_eq_four_iff.not.2 (by omega))
    rw [hseq', hblankc', toNat_add_one (bound := 4) (by omega) (by omega)]
    omega

/-- The fifth blank starts the message again (R156). -/
theorem AtAdvance.restart (h : AtAdvance s (s.qlen.toNat + 4) t) (hafter : AfterAdvance t u) :
    u.seq = 0 ∧ u.blankc = 0 :=
  hafter.restart (h.seq_lt_iff.not.2 (by omega)) (h.blankc_eq_four_iff.2 rfl)

end Message

/-- The advances before the fifth blank, one after another. -/
theorem times_advances (s : State) (hidle : s.mode = .idle) (hinbox : s.inbox = []) (hqlen : s.qlen.toNat ≤ 20)
    (htickc : s.tickc = 0) (hmovec : s.movec = 0) (hseq : s.seq = 0) (hblankc : s.blankc = 0) (n : Nat)
    (hn : n ≤ s.qlen.toNat + 4) : ∃ t, times (480 * n) (.tick none) s = .next t ∧ AtAdvance s n t := by
  induction n with
  | zero => exact ⟨s, rfl, htickc, hmovec, rfl, rfl, hidle, hinbox, by simp [hseq], by simp [hblankc]⟩
  | succ n ih =>
    obtain ⟨t, ht, hat⟩ := ih (by omega)
    obtain ⟨u, hu, hafter⟩ := times_advance t hat.mode hat.inbox (hat.qlen ▸ hqlen) hat.tickc hat.movec
    exact ⟨u, by rw [Nat.mul_succ, times_add _ _ _ _ _ ht, hu], hat.succ (by omega) hqlen hafter⟩

/-- Settles O47: QLEN + 4 advances stand before the fifth blank (`times_advances`), which starts the message again
(`AtAdvance.restart`). -/
theorem messageRepeats : Obligations.MessageRepeats := by
  unfold Obligations.MessageRepeats
  intro s hidle hinbox hqlen htickc hmovec hseq hblankc
  obtain ⟨t, ht, hat⟩ := times_advances s hidle hinbox hqlen htickc hmovec hseq hblankc _ le_rfl
  obtain ⟨u, hu, hafter⟩ := times_advance t hat.mode hat.inbox (hat.qlen ▸ hqlen) hat.tickc hat.movec
  obtain ⟨hseq', hblankc'⟩ := hat.restart hafter
  refine ⟨u, ?_, hafter.tickc, hafter.movec, hseq', hblankc', hafter.mode.trans hat.mode, hafter.qlen.trans hat.qlen,
    hafter.q.trans hat.q⟩
  rw [show 480 * (s.qlen.toNat + 5) = 480 * (s.qlen.toNat + 4) + 480 by ring, times_add _ _ _ _ _ ht, hu]

end Sys2Proof.Machine
end

section
/-! PROOF. Which operations complete, and that meeting an error class has no part in it (R170). -/

namespace Sys2Proof.Machine

variable (s : State)

/-- With no message held out, the poll of a TICK finds at most the payload the TICK carries. -/
theorem poll_payloadReadable (msg : Option (List Byte)) (hinbox : s.inbox = [])
    (hcomplete : (Instr.tick msg).payloadComplete = true) (payload : List Byte) (h : (s.poll msg).1 = some payload) :
    payloadReadable payload = true := by
  cases msg with
  | none => rw [poll_empty s hinbox] at h; cases h
  | some given => rw [poll_given] at h; cases h; exact hcomplete

/-- A TICK completes in both modes: it does nothing in mode Error (R159), and in mode Idle its steps answer (`idleTickCompletes`). -/
theorem exec_tick_completes (msg : Option (List Byte)) (hrange : s.InRange) (hinbox : s.inbox = [])
    (hcomplete : (Instr.tick msg).payloadComplete = true) : ∃ t, exec (.tick msg) s = .next t := by
  cases hmode : s.mode with
  | error => exact ⟨s, execTick_error s msg hmode⟩
  | idle =>
    obtain ⟨t, -, h, -, -⟩ := idleTickCompletes s msg hmode hrange (poll_payloadReadable s msg hinbox hcomplete)
    exact ⟨t, h⟩

/-- Every well-formed operation completes, whether or not it meets an error class. -/
theorem exec_wellFormed_completes (i : Instr) (hassigned : i.assigned = true) (hcomplete : i.payloadComplete = true)
    (hrange : s.InRange) (hinbox : s.inbox = []) : ∃ t, exec i s = .next t := by
  cases i with
  | load payload => exact ⟨_, exec_load_readable s payload hcomplete⟩
  | tick msg => exact exec_tick_completes s msg hrange hinbox hcomplete
  | reset | clrfb | shift | resolve | wrslot | blankslot | refresh | romRead | msg | rowsel => exact ⟨_, rfl⟩
  | reserved0000 | reserved1010 | reserved1011 | reserved1100 | reserved1101 | reserved1110 | reserved1111 =>
    cases hassigned

/-- An unassigned select code meets no error class (R68). -/
theorem errorsMet_of_not_assigned (i : Instr) (h : i.assigned = false) : errorsMet i s = [] := by
  cases i with
  | reserved0000 | reserved1010 | reserved1011 | reserved1100 | reserved1101 | reserved1110 | reserved1111 => rfl
  | reset | load | clrfb | shift | resolve | wrslot | blankslot | refresh | tick | romRead | msg | rowsel => cases h

/-- Settles O55: an operation that meets an error class has an assigned select code (`errorsMet_of_not_assigned`), and every
well-formed operation completes (`exec_wellFormed_completes`). -/
theorem errorClassesStopNothing : Obligations.ErrorClassesStopNothing := by
  unfold Obligations.ErrorClassesStopNothing
  intro i s herrors hrange hcomplete hinbox
  have hassigned : i.assigned = true := by
    by_contra hnot
    exact herrors (errorsMet_of_not_assigned s i (Bool.eq_false_of_not_eq_true hnot))
  exact exec_wellFormed_completes s i hassigned hcomplete hrange hinbox

end Sys2Proof.Machine
end

section
/-! PROOF. Each event at pin level (R205): the levels it leaves, the settle delays of a REFRESH and of an exchange (R210), and the
rest levels that every operation but RESET comes back to. -/

namespace Sys2Proof.Machine

/-! ### The levels each event leaves -/

section EventLevels

variable (p : Levels) (b : Bool)

theorem drive_romSel : Event.drive p (.romSel b) = { p with romCs := b } := rfl

theorem drive_romTx : Event.drive p (.romTx b) = { p with romDo := b, romClk := false } := rfl

theorem drive_romRx : Event.drive p (.romRx b) = { p with romDi := b, romClk := false } := rfl

theorem drive_ledTx : Event.drive p (.ledTx b) = { p with ledSdi := b, ledClk := false } := rfl

theorem drive_ledOe : Event.drive p (.ledOe b) = { p with ledOen := b } := rfl

theorem drive_ledLatch : Event.drive p .ledLatch = { p with ledLe := false } := rfl

theorem drive_ledRow (v : BitVec 4) : Event.drive p (.ledRow v) = { p with
    ledA0 := v.getLsbD 0, ledA1 := v.getLsbD 1, ledA2 := v.getLsbD 2, ledA3 := v.getLsbD 3 } := rfl

end EventLevels

/-- Settles O33: the bit cells are `Event.cell`'s, and running their actions in order leaves the levels of the `drive_` lemmas. -/
theorem eventsDriveSignals : Obligations.EventsDriveSignals := by
  unfold Obligations.EventsDriveSignals
  intro p b v
  refine ⟨rfl, rfl, rfl, rfl, rfl, rfl, rfl, ?_⟩
  exact ⟨drive_romSel p b, drive_romTx p b, drive_romRx p b, drive_ledTx p b, drive_ledOe p b, drive_ledLatch p,
    drive_ledRow p v⟩

/-! ### Settle delays -/

/-- A row spends two settle delays on each of its 80 data bits, and none in its control phase (R131, R205). -/
theorem settleDelays_rowEvents (code : BitVec 4) (row : Row) : settleDelays (rowEvents code row) = 160 := by
  have hbits : ((rowBytes row).flatMap (msbFirst 8)).length = 80 := by
    rw [← List.length_map (f := Event.ledTx), ← rowData_eq_map, rowData_length]
  rw [rowEvents_eq, settleDelays_append, rowData_eq_map, settleDelays_map Event.ledTx (fun _ => rfl), hbits]
  rfl

theorem settleDelays_flatMap {α : Type} (f : α → List Event) (n : Nat) (h : ∀ x, settleDelays (f x) = n) (l : List α) :
    settleDelays (l.flatMap f) = n * l.length := by
  induction l with
  | nil => rfl
  | cons x xs ih => rw [List.flatMap_cons, settleDelays_append, h, ih, List.length_cons, Nat.mul_succ, Nat.add_comm]

/-- A REFRESH spends the settle delays of its 16 rows (R210). -/
theorem settleDelays_refreshEvents (p : Params) (fb : Grid) : settleDelays (refreshEvents p fb) = 2560 := by
  rw [refreshEvents, settleDelays_flatMap _ 160 (fun _ => settleDelays_rowEvents _ _), List.length_finRange]

/-- Settles O32: the three operations append the events of a refresh (`settleDelays_refreshEvents`) or of one exchange
(`settleDelays_exchangeEvents`). -/
theorem settleDelaysSpent : Obligations.SettleDelaysSpent := by
  unfold Obligations.SettleDelaysSpent
  refine ⟨fun s => ?_, fun s code => ?_, fun s a => ?_⟩
  · exact ⟨s.refresh, _, exec_refresh s, (emits_refresh s).trace, settleDelays_refreshEvents s.params s.fb⟩
  · exact ⟨_, _, exec_resolve s code, (emits_fetchGlyph s _).trace, settleDelays_exchangeEvents s _⟩
  · exact ⟨_, _, exec_romRead s a, (emits_exchange s a).trace, settleDelays_exchangeEvents s a⟩

/-! ### Resting ports -/

/-- An event that moves a clock or the latch line brings it back to 0, and only `romSel true` selects the ROM (R205). -/
theorem PortsAtRest.drive {p : Levels} (h : PortsAtRest p) (e : Event) (he : e ≠ .romSel true) :
    PortsAtRest (Event.drive p e) := by
  obtain ⟨hcs, hromClk, hledClk, hle⟩ := h
  cases e with
  | romSel b =>
    obtain rfl : b = false := by simpa using he
    exact drive_romSel p false ▸ ⟨rfl, hromClk, hledClk, hle⟩
  | romTx b => exact drive_romTx p b ▸ ⟨hcs, rfl, hledClk, hle⟩
  | romRx b => exact drive_romRx p b ▸ ⟨hcs, rfl, hledClk, hle⟩
  | ledTx b => exact drive_ledTx p b ▸ ⟨hcs, hromClk, rfl, hle⟩
  | ledOe b => exact drive_ledOe p b ▸ ⟨hcs, hromClk, hledClk, hle⟩
  | ledLatch => exact drive_ledLatch p ▸ ⟨hcs, hromClk, hledClk, rfl⟩
  | ledRow v => exact drive_ledRow p v ▸ ⟨hcs, hromClk, hledClk, hle⟩

/-- A refresh does not touch the font ROM port (R131). -/
theorem ne_romSel_of_mem_refreshEvents {p : Params} {fb : Grid} {e : Event} (h : e ∈ refreshEvents p fb) (b : Bool) :
    e ≠ .romSel b := by
  rintro rfl
  simp [refreshEvents, rowEvents] at h

theorem PortsAtRest.foldl_refreshEvents {q : Levels} (h : PortsAtRest q) (p : Params) (fb : Grid) :
    PortsAtRest ((refreshEvents p fb).foldl Event.drive q) :=
  List.foldlRecOn _ _ h fun _ hq _ he => hq.drive _ (ne_romSel_of_mem_refreshEvents he true)

/-- An exchange ends deselected with its clock at 0, and leaves the LED signals as they were. -/
theorem PortsAtRest.foldl_exchangeEvents {p : Levels} (h : PortsAtRest p) (s : State) (a : RomAddr) :
    PortsAtRest ((s.exchangeEvents a).foldl Event.drive p) := by
  obtain ⟨hcs, hclk, -, -⟩ := foldl_exchangeEvents_drive s a p
  have hled := foldl_exchangeEvents_led s a p
  exact ⟨hcs, hclk, hled.ledClk.trans h.ledClk, hled.ledLe.trans h.ledLe⟩

/-- A TICK gives no event, or those of at most one exchange and then a refresh (`execTick_events`). -/
theorem execTick_portsAtRest (s t : State) (msg : Option (List Byte)) (h : execTick msg s = .next t)
    (hs : PortsAtRest s.pins) : PortsAtRest t.pins := by
  rcases execTick_events s msg t h with ⟨-, rfl⟩ | ⟨-, pre, hpre, -, -, hpins⟩
  · exact hs
  · rw [hpins, List.foldl_append]
    apply PortsAtRest.foldl_refreshEvents
    rcases hpre with rfl | ⟨u, a, rfl⟩
    · exact hs
    · exact hs.foldl_exchangeEvents u a

/-- Settles O54: LOAD, MSG and the framebuffer operations leave the signals alone; the others give the events of a refresh, of an
exchange, of both, or one row selection. -/
theorem portsReturnToRest : Obligations.PortsReturnToRest := by
  unfold Obligations.PortsReturnToRest
  intro i s t h hi hs
  cases i with
  | reset initOk => exact absurd rfl (hi initOk)
  | tick msg => exact execTick_portsAtRest s t msg h hs
  | load payload =>
    obtain ⟨-, rfl⟩ := exec_load_cases s payload t h
    exact hs
  | resolve code => cases h; exact (emits_fetchGlyph s _).pins ▸ hs.foldl_exchangeEvents s _
  | romRead a => cases h; exact (emits_exchange s a).pins ▸ hs.foldl_exchangeEvents s a
  | refresh => cases h; exact (emits_refresh s).pins ▸ hs.foldl_refreshEvents s.params s.fb
  | rowsel v => cases h; exact (emits_emit s [.ledRow v]).pins ▸ hs.drive (.ledRow v) nofun
  | clrfb | shift | wrslot | blankslot | msg => cases h; exact hs
  | reserved0000 | reserved1010 | reserved1011 | reserved1100 | reserved1101 | reserved1110 | reserved1111 => cases h

end Sys2Proof.Machine
end
